-- ==== Sys2Proof/Word.lean ====
section
/-! DEFINITION. The word types of the decoder core: bytes of the program buffer, the 16-bit field of a widened
argument, and the 32-bit pattern a register slot holds. -/

namespace Sys2Proof

/-- One byte of the program buffer (00_scope R9: a byte is 8 bits). -/
abbrev Byte := BitVec 8

/-- The bit pattern of a 16-bit argument field (30_encoding R65). -/
abbrev Half := BitVec 16

/-- The two's-complement pattern of one register slot (10_state R21: each slot is a signed 32-bit integer;
the signed value is `BitVec.toInt`). -/
abbrev Word := BitVec 32

/-- `NUM_REGS` (00_scope R6). -/
abbrev numRegs : Nat := 32

end Sys2Proof
end

