-- ==== Sys2Proof/Machine/Memory.lean ====
section
/-! DEFINITION. The program buffer `buf` (20_memory R40): a byte sequence of length `L`, held as its length and a list of
(offset, byte) cells in one canonical form, with the only memory primitive `MemRead(a, 1)` (20_memory R46). -/

namespace Sys2Proof.Machine

/-- The program buffer. `length` is `L`; an offset below `L` that no cell lists holds `Memory.unlisted`. -/
structure Memory where
  length : Nat
  cells : List Host.Cell
deriving DecidableEq, Repr

/-- The byte that an offset below `L` holds when no cell lists it. A load gives every byte of the buffer
(70_reset R240), so this is how zero bytes are stored, not a value for bytes that nothing has written. -/
def Memory.unlisted : Byte := 0

/-- The byte the cells give offset `a`. -/
def Memory.lookup : List Host.Cell → Nat → Byte
  | [], _ => Memory.unlisted
  | (k, b) :: rest, a => if k = a then b else Memory.lookup rest a

/-- Offsets strictly rising, from `lo` up to below `hi`, and no entry equal to `Memory.unlisted`. -/
def Memory.cellsOk : Nat → Nat → List Host.Cell → Bool
  | _, _, [] => true
  | lo, hi, (k, b) :: rest =>
    decide (lo ≤ k) && decide (k < hi) && decide (b ≠ Memory.unlisted) && Memory.cellsOk (k + 1) hi rest

/-- The canonical form: equal buffers are equal data. -/
def Memory.wf (m : Memory) : Bool := Memory.cellsOk 0 m.length m.cells

/-- The buffer of length 0. -/
def Memory.empty : Memory := { length := 0, cells := [] }

/-- The cells of a byte list whose first byte stands at offset `a`. -/
def Memory.cellsOf : Nat → List Byte → List Host.Cell
  | _, [] => []
  | a, b :: rest =>
    if b = Memory.unlisted then Memory.cellsOf (a + 1) rest else (a, b) :: Memory.cellsOf (a + 1) rest

/-- The buffer that holds the given bytes from offset 0 (70_reset R240: `buf <- bytes`). -/
def Memory.ofBytes (bs : List Byte) : Memory := { length := bs.length, cells := Memory.cellsOf 0 bs }

/-- `MemRead(a, 1)` (20_memory R46): defined only for `a < L`. -/
def Memory.read (m : Memory) (a : Nat) : Option Byte :=
  if a < m.length then some (Memory.lookup m.cells a) else none

/-- `buf[a .. a + n - 1]` in stream order (00_scope R9), as `n` byte reads (20_memory R45). Where an offset is
past the buffer nothing is read; the decoder checks the bound first (20_memory R46). -/
def Memory.slice (m : Memory) : Nat → Nat → List Byte
  | _, 0 => []
  | a, n + 1 =>
    match m.read a with
    | some b => b :: m.slice (a + 1) n
    | none => []

/-- All bytes of the buffer. -/
def Memory.toBytes (m : Memory) : List Byte := m.slice 0 m.length

/-- The buffer with the bytes `bs` standing at offset `a`, longer where they need it. No instruction does this
(20_memory R40): only `State.withFetchWord`, for a program that the host loads, uses it. -/
def Memory.placeAt (m : Memory) (a : Nat) (bs : List Byte) : Memory :=
  Memory.ofBytes
    (m.toBytes.take a ++ List.replicate (a - m.length) 0 ++ bs ++ m.toBytes.drop (a + bs.length))

end Sys2Proof.Machine
end

