-- ==== Sys2Proof/Config.lean ====
section
/-! DEFINITION. The configuration record of the decoder core (00_scope R7) and the shape types it is written in
(00_scope R10, 40_opcode_table R104). The configuration is a parameter of the machine, not state (10_state R20);
the values of the reference configuration REF stand in Machine/OpcodeTable.lean, the named checks of
40_opcode_table R109 in WellFormed.lean. -/

namespace Sys2Proof

/-- 00_scope R10: signedness of an argument. -/
inductive Sign where
  | u
  | s
deriving DecidableEq, Repr

/-- 00_scope R10: the three argument widths. -/
inductive Width where
  | w8
  | w16
  | w24
deriving DecidableEq, Repr

/-- 00_scope R10: `ArgSpec ::= (w : Width, s : Sign)`. -/
structure ArgSpec where
  w : Width
  s : Sign
deriving DecidableEq, Repr

/-- 00_scope R10: a shape is a list of argument specs; `argc` is its length. -/
abbrev Shape := List ArgSpec

/-- 40_opcode_table R104: a raw shape descriptor as a table holds it. A width field is `none` where the spec
writes 0. Nothing here makes it consistent; that is the check `wfConsistent`. -/
structure ShapeDesc where
  argc : Fin 4
  w1 : Option Width
  w2 : Option Width
  w3 : Option Width
  s1 : Sign
  s2 : Sign
  s3 : Sign
deriving DecidableEq, Repr

/-- 40_opcode_table R103: `OPCODE_ID`, the id of each of the seven named opcodes. -/
structure OpcodeIds where
  halt : Nat
  noop : Nat
  move : Nat
  loadImmediate : Nat
  extFirst : Nat
  extSecond : Nat
  extBoth : Nat
deriving DecidableEq, Repr

/-- 00_scope R7: `CONFIG = (K, OPCODE_ID, SHAPE_TABLE, REG_RESET, MAX_PROG_LEN)`. `shapeTable` lists the
descriptor of the real ids 0, 1, 2, … in order. -/
structure Config where
  K : Nat
  ids : OpcodeIds
  shapeTable : List ShapeDesc
  regReset : List Int
  maxProgLen : Nat
deriving DecidableEq, Repr

end Sys2Proof
end

