-- ==== Sys2Proof/Syntax.lean ====
section
/-! DEFINITION. The data types of 00_scope R10 (opcodes, prefixes, arguments, decoded instructions, failure reasons)
and `Instr`, one constructor per row of spec/opcode_table.json. -/

namespace Sys2Proof

/-- 40_opcode_table R100: the `K + 2` opcode values. -/
inductive Opcode where
  | real (id : Nat)
  | boundary
  | outOfRange
deriving DecidableEq, Repr

/-- 00_scope R10: the extension latch of one decode (10_state R31). -/
inductive Ext where
  | none
  | first
  | second
  | both
deriving DecidableEq, Repr

/-- 00_scope R10: an argument is its resolved spec and its `w/8` bytes in stream order. -/
structure Arg where
  spec : ArgSpec
  bytes : List Byte
deriving DecidableEq, Repr

/-- The value of an argument (41_decoder R137): a number for a width of 8 or 16, three uncombined bytes for a
width of 24. -/
inductive ArgValue where
  | int (v : Int)
  | raw (b0 b1 b2 : Byte)
deriving DecidableEq, Repr

/-- The spec's own `Instr` (00_scope R10, 41_decoder R141), under any configuration: the opcode after any prefix,
and the arguments of the resolved shape. The prefix is no part of it. -/
structure Decoded where
  op : Opcode
  args : List Arg
deriving DecidableEq, Repr

/-- 00_scope R10, 60_exceptions R212: the five failure reasons. -/
inductive Reason where
  /-- no byte at the cursor, or a prefix is the last byte (41_decoder R139) -/
  | endOfProgram
  /-- the argument bytes of the resolved shape run past the buffer (41_decoder R138) -/
  | truncatedInstruction (op : Opcode) (argc : Nat) (bytesNeeded : Nat)
  /-- the decoded opcode has no handler (42_dispatch R178) -/
  | unsupportedOpcode (op : Opcode)
  /-- LOAD_IMMEDIATE with an index of 32 or more (42_dispatch R177) -/
  | registerIndexOutOfRange (index : Byte)
  /-- LOAD_IMMEDIATE with a resolved shape other than (U8, S16) (42_dispatch R177) -/
  | argumentShapeMismatch (op : Opcode) (got : Shape)
deriving DecidableEq, Repr

/-- 00_scope R10, 10_state R26: the status register. -/
inductive Status where
  | running
  | halted
  | failed (reason : Reason)
deriving DecidableEq, Repr

/-- The outcome of a decode (00_scope R9: `Ok(v)` with the offset past every byte consumed, or `Err(r)`). -/
inductive DecodeResult (α : Type) where
  | ok (v : α) (next : Nat)
  | err (r : Reason)
deriving DecidableEq, Repr

/-- The instructions of spec/opcode_table.json, one constructor per row, in the REF numbering (40_opcode_table R110).

The first seven rows and the eleven `GEN_` placeholders are the unprefixed forms of 30_encoding R62. The rows EXT_FIRST,
EXT_SECOND and EXT_BOTH are selected by an instruction's FIRST byte: a prefix is consumed by the decoder together
with the opcode byte after it (41_decoder R131), so their constructors hold that opcode and its arguments at the
resolved widths. A prefix that stands as the SECOND byte is the opcode of such an instruction (41_decoder R136): it is
`op := .real 4`, `5` or `6` there. A prefixed LOAD_IMMEDIATE has the table's own two-byte rows, the last three.
A signed operand is its bit pattern; its value is read by 41_decoder R137. -/
inductive Instr where
  | halt
  | noop
  | move (a1 a2 : Byte)
  | loadImmediate (n v : Byte)
  | extFirst (op : Opcode) (args : List Arg)
  | extSecond (op : Opcode) (args : List Arg)
  | extBoth (op : Opcode) (args : List Arg)
  | genU8 (a1 : Byte)
  | genS8 (a1 : Byte)
  | genU16 (a1 : Half)
  | genS16 (a1 : Half)
  | genU24 (b0 b1 b2 : Byte)
  | genS24 (b0 b1 b2 : Byte)
  | genU8U8 (a1 a2 : Byte)
  | genU8S8 (a1 a2 : Byte)
  | genU8U16 (a1 : Byte) (a2 : Half)
  | genU16U8 (a1 : Half) (a2 : Byte)
  | genU8U8U8 (a1 a2 a3 : Byte)
  | outOfRange
  | boundary
  | extFirstLoadImmediate (n : Half) (v : Byte)
  | extSecondLoadImmediate (n : Byte) (v : Half)
  | extBothLoadImmediate (n v : Half)
deriving DecidableEq, Repr

/-- What dispatch does with an opcode (42_dispatch R170): one of the four handlers, or none. -/
inductive Handler where
  | halt
  | noop
  | move
  | loadImmediate
  | unsupported
deriving DecidableEq, Repr

end Sys2Proof
end

