-- ==== Sys2Proof/Machine/OpcodeTable.lean ====
section
/-! DEFINITION. The Opcode Table (40_opcode_table): the three total functions `fromByte`, `toByte` and `shapeOf` of
10_state R37, the shape arithmetic and the widening function (41_decoder R135), all under any configuration, and
the reference configuration REF (40_opcode_table R110). -/

namespace Sys2Proof

/-! ### Shapes -/

/-- Bytes of an argument: `w/8` (30_encoding R60). -/
def Width.bytes : Width → Nat
  | .w8 => 1
  | .w16 => 2
  | .w24 => 3

/-- Total argument bytes of a shape: the sum of `w/8` (30_encoding R64). -/
def Shape.need : Shape → Nat
  | [] => 0
  | a :: rest => a.w.bytes + Shape.need rest

abbrev ArgSpec.u8 : ArgSpec := { w := .w8, s := .u }
abbrev ArgSpec.s8 : ArgSpec := { w := .w8, s := .s }
abbrev ArgSpec.u16 : ArgSpec := { w := .w16, s := .u }
abbrev ArgSpec.s16 : ArgSpec := { w := .w16, s := .s }
abbrev ArgSpec.u24 : ArgSpec := { w := .w24, s := .u }
abbrev ArgSpec.s24 : ArgSpec := { w := .w24, s := .s }

/-- 40_opcode_table R104: exactly the first `argc` width fields are nonzero. -/
def ShapeDesc.consistent (d : ShapeDesc) : Bool :=
  (d.w1.isSome == decide (1 ≤ d.argc.val)) && (d.w2.isSome == decide (2 ≤ d.argc.val))
    && (d.w3.isSome == decide (3 ≤ d.argc.val))

/-- One entry of the shape list a descriptor stands for. -/
def ShapeDesc.entry (w : Option Width) (sg : Sign) : Shape :=
  match w with
  | some w => [{ w := w, s := sg }]
  | none => []

/-- 40_opcode_table R104: the list of `(w_i, s_i)` for `i = 1..argc`. -/
def ShapeDesc.toShape (d : ShapeDesc) : Shape :=
  match d.argc.val with
  | 0 => []
  | 1 => ShapeDesc.entry d.w1 d.s1
  | 2 => ShapeDesc.entry d.w1 d.s1 ++ ShapeDesc.entry d.w2 d.s2
  | _ => ShapeDesc.entry d.w1 d.s1 ++ ShapeDesc.entry d.w2 d.s2 ++ ShapeDesc.entry d.w3 d.s3

/-- The consistent descriptor of a shape of at most three arguments. -/
def ShapeDesc.ofShape : Shape → ShapeDesc
  | [] => { argc := 0, w1 := none, w2 := none, w3 := none, s1 := .u, s2 := .u, s3 := .u }
  | [a] => { argc := 1, w1 := some a.w, w2 := none, w3 := none, s1 := a.s, s2 := .u, s3 := .u }
  | [a, b] => { argc := 2, w1 := some a.w, w2 := some b.w, w3 := none, s1 := a.s, s2 := b.s, s3 := .u }
  | a :: b :: c :: _ =>
    { argc := 3, w1 := some a.w, w2 := some b.w, w3 := some c.w, s1 := a.s, s2 := b.s, s3 := c.s }

/-- 40_opcode_table R105: the legal base shapes. -/
def Shape.legalBase : Shape → Bool
  | [] => true
  | [_] => true
  | [_, _] => true
  | [a, b, c] => decide (a.w = .w8) && decide (b.w = .w8) && decide (c.w = .w8)
  | _ => false

/-! ### The three functions of the table -/

/-- 40_opcode_table R101: an explicit bounds check, total; never `BOUNDARY`. -/
def Config.fromByte (c : Config) (b : Byte) : Opcode :=
  if b.toNat < c.K then .real b.toNat else .outOfRange

/-- 40_opcode_table R102. -/
def Config.toByte (c : Config) : Opcode → Byte
  | .real i => BitVec.ofNat 8 i
  | .boundary => BitVec.ofNat 8 c.K
  | .outOfRange => 255

/-- 40_opcode_table R106. -/
def Config.shapeOf (c : Config) : Opcode → Shape
  | .real i =>
    match c.shapeTable[i]? with
    | some d => d.toShape
    | none => []
  | .boundary => []
  | .outOfRange => []

/-! ### Extension prefixes -/

/-- 41_decoder R131 `extOf`, with `NONE` for an opcode that is no prefix. -/
def Config.extOf (c : Config) (op : Opcode) : Ext :=
  if op = .real c.ids.extFirst then .first
  else if op = .real c.ids.extSecond then .second
  else if op = .real c.ids.extBoth then .both
  else .none

/-- 40_opcode_table R103 `isExt`. -/
def Config.isExt (c : Config) (op : Opcode) : Bool := decide (c.extOf op ≠ .none)

/-- 41_decoder R135: the prefix widens argument 1. -/
def Ext.hitsFirst : Ext → Bool
  | .first => true
  | .both => true
  | .second => false
  | .none => false

/-- 41_decoder R135: the prefix widens argument 2. -/
def Ext.hitsSecond : Ext → Bool
  | .second => true
  | .both => true
  | .first => false
  | .none => false

/-- 41_decoder R135: an 8-bit argument that is hit becomes 16 bits wide with its sign kept. -/
def ArgSpec.widen (hit : Bool) (a : ArgSpec) : ArgSpec :=
  if hit = true ∧ a.w = .w8 then { a with w := .w16 } else a

/-- 41_decoder R135: the resolved shape. -/
def Shape.widen : Shape → Ext → Shape
  | [], _ => []
  | [a], e => [a.widen e.hitsFirst]
  | a :: b :: rest, e => a.widen e.hitsFirst :: b.widen e.hitsSecond :: rest

/-! ### Dispatch selection -/

/-- 42_dispatch R170: which handler an opcode has. Dispatch is by opcode alone, never by shape. -/
def Config.handlerOf (c : Config) (op : Opcode) : Handler :=
  if op = .real c.ids.halt then .halt
  else if op = .real c.ids.noop then .noop
  else if op = .real c.ids.move then .move
  else if op = .real c.ids.loadImmediate then .loadImmediate
  else .unsupported

/-- 10_state R32: the register file after a load, `x[i] = REG_RESET[i]`. -/
def Config.resetRegs (c : Config) : Vector Word numRegs :=
  Vector.ofFn fun i => BitVec.ofInt 32 (c.regReset.getD i.val 0)

/-! ### REF -/

/-- 40_opcode_table R110: the base shapes of the named opcodes of REF, ids 0x00 to 0x06. -/
def refNamedShapes : List Shape := [[], [], [ArgSpec.u8, ArgSpec.u8], [ArgSpec.u8, ArgSpec.s8], [], [], []]

/-- 40_opcode_table R110: the base shapes of the placeholders with one argument, ids 0x07 to 0x0C. -/
def refOneArgShapes : List Shape :=
  [[ArgSpec.u8], [ArgSpec.s8], [ArgSpec.u16], [ArgSpec.s16], [ArgSpec.u24], [ArgSpec.s24]]

/-- 40_opcode_table R110: the base shapes of the placeholders with two and three arguments, ids 0x0D to 0x11. -/
def refMoreArgShapes : List Shape :=
  [[ArgSpec.u8, ArgSpec.u8], [ArgSpec.u8, ArgSpec.s8], [ArgSpec.u8, ArgSpec.u16], [ArgSpec.u16, ArgSpec.u8],
    [ArgSpec.u8, ArgSpec.u8, ArgSpec.u8]]

/-- 40_opcode_table R110: the base shapes of REF, by id. -/
def refShapes : List Shape := refNamedShapes ++ refOneArgShapes ++ refMoreArgShapes

/-- 40_opcode_table R110: the reference configuration. Its numbering and placeholder shapes are the spec's own choice
(92_eei_decisions D1, D2, D14, D16). -/
def Config.ref : Config :=
  { K := 18
    ids := { halt := 0, noop := 1, move := 2, loadImmediate := 3, extFirst := 4, extSecond := 5, extBoth := 6 }
    shapeTable := refShapes.map ShapeDesc.ofShape
    regReset := List.replicate numRegs 0
    maxProgLen := 65535 }

end Sys2Proof
end

