-- ==== Sys2Proof/Machine/Operands.lean ====
section
/-! DEFINITION. Operand forms: how an argument's bytes are read as a value (41_decoder R137, 30_encoding R65), how the operand
fields of an `Instr` are laid out as argument bytes, and the spec's decoded form of each instruction. -/

namespace Sys2Proof

/-! ### Signed numbers (00_scope R9) -/

/-- `sval_n(v)`: the two's-complement reading of an `n`-bit pattern. -/
def sval (n : Nat) (v : Nat) : Int :=
  if 2 ^ (n - 1) ≤ v then (v : Int) - 2 ^ n else v

/-- `sext_32(v)`: the 32-bit two's-complement pattern of a signed integer. -/
def sext32 (v : Int) : Word := BitVec.ofInt 32 v

/-! ### Reading an argument (41_decoder R137) -/

/-- `b_k` of an argument. -/
def Arg.byte (a : Arg) (k : Nat) : Byte := a.bytes.getD k 0

/-- `b0 * 256 + b1`: big-endian (20_memory R42). -/
def Arg.pair (a : Arg) : Nat := (a.byte 0).toNat * 256 + (a.byte 1).toNat

/-- 41_decoder R137 `value(arg)`. -/
def Arg.value (a : Arg) : ArgValue :=
  match a.spec.w, a.spec.s with
  | .w8, .u => .int (a.byte 0).toNat
  | .w8, .s => .int (sval 8 (a.byte 0).toNat)
  | .w16, .u => .int a.pair
  | .w16, .s => .int (sval 16 a.pair)
  | .w24, _ => .raw (a.byte 0) (a.byte 1) (a.byte 2)

/-! ### Building an argument -/

/-- An 8-bit argument field. -/
def Arg.ofByte (sg : Sign) (b : Byte) : Arg := { spec := { w := .w8, s := sg }, bytes := [b] }

/-- A 16-bit argument field, most significant byte first (20_memory R42). -/
def Arg.ofHalf (sg : Sign) (h : Half) : Arg :=
  { spec := { w := .w16, s := sg }, bytes := [h.extractLsb' 8 8, h.extractLsb' 0 8] }

/-- A 24-bit argument field: three raw bytes in stream order (20_memory R43). -/
def Arg.ofTriple (sg : Sign) (b0 b1 b2 : Byte) : Arg := { spec := { w := .w24, s := sg }, bytes := [b0, b1, b2] }

/-- The 16-bit pattern of two bytes, the first more significant (20_memory R42). -/
def halfOf (hi lo : Byte) : Half := hi ++ lo

/-- The bytes of an argument list, in argument order (30_encoding R60). -/
def Arg.allBytes : List Arg → List Byte
  | [] => []
  | a :: rest => a.bytes ++ Arg.allBytes rest

/-- Every argument has the `w/8` bytes of its spec (00_scope R10). -/
def Arg.allSized : List Arg → Bool
  | [] => true
  | a :: rest => decide (a.bytes.length = a.spec.w.bytes) && Arg.allSized rest

/-! ### The parts of an instruction -/

/-- The prefix byte an instruction's encoding starts with (30_encoding R63). -/
def Instr.ext : Instr → Ext
  | .extFirst _ _ => .first
  | .extSecond _ _ => .second
  | .extBoth _ _ => .both
  | .extFirstLoadImmediate _ _ => .first
  | .extSecondLoadImmediate _ _ => .second
  | .extBothLoadImmediate _ _ => .both
  | .halt => .none
  | .noop => .none
  | .move _ _ => .none
  | .loadImmediate _ _ => .none
  | .genU8 _ => .none
  | .genS8 _ => .none
  | .genU16 _ => .none
  | .genS16 _ => .none
  | .genU24 _ _ _ => .none
  | .genS24 _ _ _ => .none
  | .genU8U8 _ _ => .none
  | .genU8S8 _ _ => .none
  | .genU8U16 _ _ => .none
  | .genU16U8 _ _ => .none
  | .genU8U8U8 _ _ _ => .none
  | .outOfRange => .none
  | .boundary => .none

/-- The spec's decoded form of an instruction (41_decoder R141), in the REF numbering (40_opcode_table R110). -/
def Instr.resolved : Instr → Decoded
  | .halt => { op := .real 0x00, args := [] }
  | .noop => { op := .real 0x01, args := [] }
  | .move a1 a2 => { op := .real 0x02, args := [.ofByte .u a1, .ofByte .u a2] }
  | .loadImmediate n v => { op := .real 0x03, args := [.ofByte .u n, .ofByte .s v] }
  | .extFirst op args => { op := op, args := args }
  | .extSecond op args => { op := op, args := args }
  | .extBoth op args => { op := op, args := args }
  | .genU8 a1 => { op := .real 0x07, args := [.ofByte .u a1] }
  | .genS8 a1 => { op := .real 0x08, args := [.ofByte .s a1] }
  | .genU16 a1 => { op := .real 0x09, args := [.ofHalf .u a1] }
  | .genS16 a1 => { op := .real 0x0A, args := [.ofHalf .s a1] }
  | .genU24 b0 b1 b2 => { op := .real 0x0B, args := [.ofTriple .u b0 b1 b2] }
  | .genS24 b0 b1 b2 => { op := .real 0x0C, args := [.ofTriple .s b0 b1 b2] }
  | .genU8U8 a1 a2 => { op := .real 0x0D, args := [.ofByte .u a1, .ofByte .u a2] }
  | .genU8S8 a1 a2 => { op := .real 0x0E, args := [.ofByte .u a1, .ofByte .s a2] }
  | .genU8U16 a1 a2 => { op := .real 0x0F, args := [.ofByte .u a1, .ofHalf .u a2] }
  | .genU16U8 a1 a2 => { op := .real 0x10, args := [.ofHalf .u a1, .ofByte .u a2] }
  | .genU8U8U8 a1 a2 a3 => { op := .real 0x11, args := [.ofByte .u a1, .ofByte .u a2, .ofByte .u a3] }
  | .outOfRange => { op := .outOfRange, args := [] }
  | .boundary => { op := .boundary, args := [] }
  | .extFirstLoadImmediate n v => { op := .real 0x03, args := [.ofHalf .u n, .ofByte .s v] }
  | .extSecondLoadImmediate n v => { op := .real 0x03, args := [.ofByte .u n, .ofHalf .s v] }
  | .extBothLoadImmediate n v => { op := .real 0x03, args := [.ofHalf .u n, .ofHalf .s v] }

/-- 30_encoding R64: `p + 1 + sum of w/8`, the bytes an instruction occupies. -/
def Instr.length (i : Instr) : Nat :=
  (if i.ext = .none then 0 else 1) + 1 + Shape.need (i.resolved.args.map Arg.spec)

end Sys2Proof
end

