-- ==== Sys2Proof/WellFormed.lean ====
section
/-! DEFINITION. Well-formedness: the named checks of 40_opcode_table R109 on a configuration, and the check on an instruction
term (that it is one of the encodings of 30_encoding R62 and R63 in REF). -/

namespace Sys2Proof

/-! ### Configurations (40_opcode_table R109) -/

/-- `wf_K`: `7 <= K <= 254`. -/
def Config.wfK (c : Config) : Bool := decide (7 ≤ c.K) && decide (c.K ≤ 254)

/-- The seven `OPCODE_ID` values. -/
def OpcodeIds.toList (o : OpcodeIds) : List Nat :=
  [o.halt, o.noop, o.move, o.loadImmediate, o.extFirst, o.extSecond, o.extBoth]

/-- `wf_ids_distinct`. -/
def Config.wfIdsDistinct (c : Config) : Bool := decide c.ids.toList.Nodup

/-- `wf_ids_range`. -/
def Config.wfIdsRange (c : Config) : Bool := c.ids.toList.all fun i => decide (i < c.K)

/-- The table has an entry for each real id and for no other (00_scope R7: `SHAPE_TABLE` maps each real id). It is not among the named
checks of 40_opcode_table R109 (DEDUCED, log entry 11). -/
def Config.wfTableTotal (c : Config) : Bool := decide (c.shapeTable.length = c.K)

/-- `wf_consistent`. -/
def Config.wfConsistent (c : Config) : Bool := c.shapeTable.all ShapeDesc.consistent

/-- `wf_legal`. -/
def Config.wfLegal (c : Config) : Bool := c.shapeTable.all fun d => Shape.legalBase d.toShape

/-- `wf_pinned`: the entries of 40_opcode_table R107. -/
def Config.wfPinned (c : Config) : Bool :=
  decide (c.shapeOf (.real c.ids.halt) = []) && decide (c.shapeOf (.real c.ids.noop) = [])
    && decide (c.shapeOf (.real c.ids.loadImmediate) = [.u8, .s8])
    && decide (c.shapeOf (.real c.ids.extFirst) = []) && decide (c.shapeOf (.real c.ids.extSecond) = [])
    && decide (c.shapeOf (.real c.ids.extBoth) = [])

/-- `wf_reg_reset`: 32 entries, each a signed 32-bit value. -/
def Config.wfRegReset (c : Config) : Bool :=
  decide (c.regReset.length = numRegs)
    && c.regReset.all fun v => decide (-2 ^ 31 ≤ v) && decide (v ≤ 2 ^ 31 - 1)

/-- 40_opcode_table R109: every named check holds, and `wfTableTotal` (DEDUCED, log entry 11). (`wf_maxlen`, `MAX_PROG_LEN >= 0`, holds by the field's type.) -/
def Config.wellFormed (c : Config) : Bool :=
  c.wfK && c.wfIdsDistinct && c.wfIdsRange && c.wfTableTotal && c.wfConsistent && c.wfLegal && c.wfPinned
    && c.wfRegReset

/-! ### Instructions -/

/-- The opcodes `fromByte` can give (40_opcode_table R101): a real id below `K`, or OUT_OF_RANGE. -/
def Config.fetchable (c : Config) : Opcode → Bool
  | .real i => decide (i < c.K)
  | .boundary => false
  | .outOfRange => true

/-- A prefixed instruction term is an encoding: its opcode can be fetched, it is not LOAD_IMMEDIATE (those are rows of
their own), its arguments have the specs of the resolved shape (41_decoder R135) and each the bytes of its spec. -/
def prefixedOk (e : Ext) (op : Opcode) (args : List Arg) : Bool :=
  Config.ref.fetchable op && decide (op ≠ .real Config.ref.ids.loadImmediate)
    && decide (args.map Arg.spec = Shape.widen (Config.ref.shapeOf op) e) && Arg.allSized args

/-- The instruction is one that some bytes decode to. The typed operand fields of the other rows admit every
value; BOUNDARY is never decoded (40_opcode_table R101). -/
def Instr.wellFormed : Instr → Bool
  | .extFirst op args => prefixedOk .first op args
  | .extSecond op args => prefixedOk .second op args
  | .extBoth op args => prefixedOk .both op args
  | .boundary => false
  | .halt => true
  | .noop => true
  | .move _ _ => true
  | .loadImmediate _ _ => true
  | .genU8 _ => true
  | .genS8 _ => true
  | .genU16 _ => true
  | .genS16 _ => true
  | .genU24 _ _ _ => true
  | .genS24 _ _ _ => true
  | .genU8U8 _ _ => true
  | .genU8S8 _ _ => true
  | .genU8U16 _ _ => true
  | .genU16U8 _ _ => true
  | .genU8U8U8 _ _ _ => true
  | .outOfRange => true
  | .extFirstLoadImmediate _ _ => true
  | .extSecondLoadImmediate _ _ => true
  | .extBothLoadImmediate _ _ => true

end Sys2Proof
end

