-- ==== Sys2Proof/Decode.lean ====
section
/-! DEFINITION. The Instruction Decoder (41_decoder) under any configuration, the reading of its result as an `Instr` in REF,
and the encoder. Decoding is total; the only rejections are EndOfProgram and TruncatedInstruction (41_decoder R130). -/

namespace Sys2Proof

open Machine (Memory)

/-! ### decode (41_decoder R131) -/

/-- Step 5, extraction: the arguments of a shape from offset `a` on (41_decoder R137). -/
def takeArgs (m : Memory) : Nat → Shape → List Arg
  | _, [] => []
  | a, sp :: rest => { spec := sp, bytes := m.slice a sp.w.bytes } :: takeArgs m (a + sp.w.bytes) rest

/-- Steps 3 to 6 for the opcode `op` under the latch `ext`, with the cursor `a` just past the opcode byte. -/
def decodeBody (c : Config) (m : Memory) (ext : Ext) (op : Opcode) (a : Nat) : DecodeResult (Ext × Decoded) :=
  let shape := Shape.widen (c.shapeOf op) ext
  let need := Shape.need shape
  if m.length < a + need then .err (.truncatedInstruction op shape.length need)
  else .ok (ext, { op := op, args := takeArgs m a shape }) (a + need)

/-- Steps 1 and 2: the extension latch, the opcode and the cursor just past the opcode byte; none at the end of the buffer.
`MemRead` answers nothing exactly at `a >= L` (20_memory R46), which is the end-of-buffer check. The byte after a prefix
is not tested for being a prefix (41_decoder R136). -/
def decodeHead (c : Config) (m : Memory) (pc : Nat) : Option (Ext × Opcode × Nat) :=
  match m.read pc with
  | none => none
  | some b =>
    if c.isExt (c.fromByte b) then
      match m.read (pc + 1) with
      | none => none
      | some b2 => some (c.extOf (c.fromByte b), c.fromByte b2, pc + 2)
    else some (.none, c.fromByte b, pc + 1)

/-- `decode` with the latch kept beside the instruction. -/
def decodeWithExt (c : Config) (m : Memory) (pc : Nat) : DecodeResult (Ext × Decoded) :=
  match decodeHead c m pc with
  | none => .err .endOfProgram
  | some (ext, op, a) => decodeBody c m ext op a

/-- A function of the decoded value, the offset and the rejections kept. -/
def DecodeResult.map {α β : Type} (f : α → β) : DecodeResult α → DecodeResult β
  | .ok v n => .ok (f v) n
  | .err r => .err r

/-- The same result at offsets `d` higher: what the same bytes give further up in a buffer. -/
def DecodeResult.shift {α : Type} (d : Nat) : DecodeResult α → DecodeResult α
  | .ok v n => .ok v (d + n)
  | .err r => .err r

/-- `decode(CONFIG, buf, pc)` (41_decoder R130): the prefix leaves no trace but the widened specs (41_decoder R141). -/
def decode (c : Config) (m : Memory) (pc : Nat) : DecodeResult Decoded := (decodeWithExt c m pc).map Prod.snd

/-! ### Instr in REF -/

/-- An unprefixed instruction of REF from its opcode and argument bytes (40_opcode_table R110). The ids 4, 5 and 6 never come here,
since an unprefixed decode does not end on a prefix; ids of 18 and more are no value of `fromByte`. -/
def Instr.ofPlain (op : Opcode) (bs : List Byte) : Instr :=
  let b := fun k => bs.getD k 0
  match op with
  | .real 0x00 => .halt
  | .real 0x01 => .noop
  | .real 0x02 => .move (b 0) (b 1)
  | .real 0x03 => .loadImmediate (b 0) (b 1)
  | .real 0x07 => .genU8 (b 0)
  | .real 0x08 => .genS8 (b 0)
  | .real 0x09 => .genU16 (halfOf (b 0) (b 1))
  | .real 0x0A => .genS16 (halfOf (b 0) (b 1))
  | .real 0x0B => .genU24 (b 0) (b 1) (b 2)
  | .real 0x0C => .genS24 (b 0) (b 1) (b 2)
  | .real 0x0D => .genU8U8 (b 0) (b 1)
  | .real 0x0E => .genU8S8 (b 0) (b 1)
  | .real 0x0F => .genU8U16 (b 0) (halfOf (b 1) (b 2))
  | .real 0x10 => .genU16U8 (halfOf (b 0) (b 1)) (b 2)
  | .real 0x11 => .genU8U8U8 (b 0) (b 1) (b 2)
  | .real _ => .outOfRange
  | .outOfRange => .outOfRange
  | .boundary => .boundary

/-- An instruction of REF from a decode's prefix, opcode and arguments. -/
def Instr.ofParts (ext : Ext) (ins : Decoded) : Instr :=
  let bs := Arg.allBytes ins.args
  let b := fun k => bs.getD k 0
  match ext with
  | .none => Instr.ofPlain ins.op bs
  | .first =>
    if ins.op = .real 0x03 then .extFirstLoadImmediate (halfOf (b 0) (b 1)) (b 2) else .extFirst ins.op ins.args
  | .second =>
    if ins.op = .real 0x03 then .extSecondLoadImmediate (b 0) (halfOf (b 1) (b 2)) else .extSecond ins.op ins.args
  | .both =>
    if ins.op = .real 0x03 then .extBothLoadImmediate (halfOf (b 0) (b 1)) (halfOf (b 2) (b 3))
    else .extBoth ins.op ins.args

/-- The decoder of the machine of REF: the instruction at `pc` and the offset past it. -/
def decodeInstr (m : Memory) (pc : Nat) : DecodeResult Instr :=
  (decodeWithExt Config.ref m pc).map fun p => Instr.ofParts p.1 p.2

/-! ### Encoder -/

/-- The prefix byte, if any (30_encoding R63), in REF. -/
def Ext.encode : Ext → List Byte
  | .none => []
  | .first => [0x04]
  | .second => [0x05]
  | .both => [0x06]

/-- The bytes of an instruction (30_encoding R60): prefix, opcode byte, argument fields in order. OUT_OF_RANGE is written
as its canonical byte 255 (40_opcode_table R102). -/
def encode (i : Instr) : List Byte :=
  i.ext.encode ++ Config.ref.toByte i.resolved.op :: Arg.allBytes i.resolved.args

/-! ### The opcode table's own numbering of an instruction's bits -/

/-- The longest instruction of REF (30_encoding R64). -/
def maxInstrBytes : Nat := 7

/-- Byte `k` of a number, least significant first. -/
def byteAt (w k : Nat) : Byte := BitVec.ofNat 8 (w / 256 ^ k)

/-- The bytes of the table word `w` of `nbits` bits, with zero bytes after it up to the longest instruction. The table's
one-byte rows match bits 7..0 as the first byte. Its two-byte rows (the prefixed LOAD_IMMEDIATE) match bits 15..8 as the
first byte, the prefix, and bits 7..0 as the second: `match and mask over the first two bytes, first byte most
significant` (log entry 5). -/
def tableBytes (nbits w : Nat) : List Byte :=
  let v := w % 2 ^ nbits
  let rest := (List.range (maxInstrBytes - 2)).map fun k => byteAt v (k + 2)
  if Config.ref.isExt (Config.ref.fromByte (byteAt v 1)) then byteAt v 1 :: byteAt v 0 :: rest
  else byteAt v 0 :: byteAt v 1 :: rest

/-- The instruction this decoder reads from an instruction whose bits the table numbers `w`. -/
def decodeTableWord (nbits w : Nat) : Option Instr :=
  match decodeInstr (Memory.ofBytes (tableBytes nbits w)) 0 with
  | .ok i _ => some i
  | .err _ => none

end Sys2Proof
end

