-- ==== Sys2Proof/Machine/State.lean ====
section
/-! DEFINITION. The architectural state (10_state R20): program buffer, program counter, register file, status, and the state
after reset. The extension latch and the local cursor exist only inside one decode (10_state R31); the
configuration is a parameter of the machine, not state (10_state R20). -/

namespace Sys2Proof.Machine

/-- No step of this machine stops with a fault: every failure of the spec is recorded in `status` and the step
answers a next state (60_exceptions R210). The type has no constructor, so nothing can raise one. -/
inductive Fault : Type
deriving DecidableEq, Repr

/-- Why an operation is refused. -/
inductive Refusal where
  /-- Raised by an arm of `exec` whose instruction has no meaning yet (none is left). Safe: nothing follows from it. -/
  | notModelled (mnemonic : String)
  /-- Raised by the machine under an arbitrary configuration (`stepAt`, `runAt`, `load`) when a check of 40_opcode_table R109
  fails. Safe: the spec refuses such a configuration; the machine of REF never raises it. -/
  | illFormedConfig
  /-- Raised by the host operation `load` when the program is longer than `MAX_PROG_LEN` (20_memory R52). Safe: the spec
  refuses such a load. -/
  | programTooLong (length : Nat)
deriving DecidableEq, Repr

/-- 10_state R20: the four parts of the architectural state. -/
structure State where
  /-- the loaded program buffer (20_memory R40) -/
  buf : Memory
  /-- byte offset of the next byte to decode (10_state R23) -/
  pc : Nat
  /-- the register file (10_state R21) -/
  x : Vector Word numRegs
  /-- Running, Halted or Failed with a reason (10_state R26) -/
  status : Status
deriving DecidableEq, Repr

/-- The machine right after reset (10_state R32) under REF, with the program of length 0: nothing has been loaded yet.
The register values are REF's `REG_RESET` (log entry 3). -/
def State.reset : State :=
  { buf := Memory.empty, pc := 0, x := Config.ref.resetRegs, status := .running }

end Sys2Proof.Machine
end

