-- ==== Sys2Proof/Machine/Ops.lean ====
section
/-! DEFINITION. The operations the instructions share: writing `pc`, reading and writing a register, halting, taking a
failure (60_exceptions R210: the block's only exceptional event), the immediate-load handler, and the state a load
leaves (70_reset R240). There is no return from a failure (60_exceptions R219). -/

namespace Sys2Proof.Machine

/-- `pc <- target` (00_scope R9). -/
def State.setPc (s : State) (target : Nat) : State := { s with pc := target }

/-- `x[n]` for `n < 32`; the block defines no other register (10_state R21). -/
def State.readReg (s : State) (n : Fin numRegs) : Word := s.x[n]

/-- `x[n] <- v`. Every writer has checked `n < 32` before (10_state R22). -/
def State.writeReg (s : State) (n : Nat) (v : Word) : State := { s with x := s.x.setIfInBounds n v }

/-- Taking a failure (60_exceptions R210): `status <- Failed(reason)` and nothing else. -/
def State.fail (s : State) (r : Reason) : State := { s with status := .failed r }

/-- `status <- Halted` (42_dispatch R174). -/
def State.halt (s : State) : State := { s with status := .halted }

/-- An opcode without a handler (42_dispatch R178). -/
def State.unsupported (s : State) (op : Opcode) : State := s.fail (.unsupportedOpcode op)

/-- The register write of LOAD_IMMEDIATE once the shape is accepted (42_dispatch R177): index check, then
`x[n] <- sext_32(v)`. -/
def State.loadReg (s : State) (n : Nat) (v : Int) : State :=
  if numRegs ≤ n then s.fail (.registerIndexOutOfRange (BitVec.ofNat 8 n)) else s.writeReg n (sext32 v)

/-- The LOAD_IMMEDIATE handler (42_dispatch R177): the shape check first, then the index check. -/
def State.loadImmediate (s : State) (op : Opcode) (args : List Arg) : State :=
  if args.map Arg.spec = [.u8, .s16] then
    match args.map Arg.value with
    | [.int n, .int v] => s.loadReg n.toNat v
    | _ => s.fail (.argumentShapeMismatch op (args.map Arg.spec))
  else s.fail (.argumentShapeMismatch op (args.map Arg.spec))

/-- `dispatch(ins)` (42_dispatch R170) under any configuration: by the handler the opcode has, never by shape. -/
def dispatch (c : Config) (ins : Decoded) (s : State) : State :=
  match c.handlerOf ins.op with
  | .halt => s.halt
  | .noop => s
  | .move => s
  | .loadImmediate => s.loadImmediate ins.op ins.args
  | .unsupported => s.unsupported ins.op

/-- The state a load leaves (70_reset R240, 10_state R32). -/
def State.loaded (c : Config) (bytes : List Byte) : State :=
  { buf := Memory.ofBytes bytes, pc := 0, x := c.resetRegs, status := .running }

end Sys2Proof.Machine
end

