-- ==== Sys2Proof/Machine/Extension.lean ====
section
/-! DEFINITION. The extension prefixes (41_decoder R132 to R134). The decoder has consumed the prefix and widened the arguments;
what runs is the opcode after it (41_decoder R131), which fails as unsupported when it is itself a prefix
(41_decoder R136, 42_dispatch R178). -/

namespace Sys2Proof.Machine

/-- EXT_FIRST and the instruction it widens (41_decoder R132). -/
def execExtFirst (op : Opcode) (args : List Arg) (s : State) : Host.Outcome State Fault Refusal :=
  .next (dispatch Config.ref { op := op, args := args } s)

/-- EXT_SECOND and the instruction it widens (41_decoder R133). -/
def execExtSecond (op : Opcode) (args : List Arg) (s : State) : Host.Outcome State Fault Refusal :=
  .next (dispatch Config.ref { op := op, args := args } s)

/-- EXT_BOTH and the instruction it widens (41_decoder R134). -/
def execExtBoth (op : Opcode) (args : List Arg) (s : State) : Host.Outcome State Fault Refusal :=
  .next (dispatch Config.ref { op := op, args := args } s)

end Sys2Proof.Machine
end

