-- ==== Sys2Proof/Machine/Named.lean ====
section
/-! DEFINITION. The named opcodes with a handler (42_dispatch R174 to R177) and the four forms of LOAD_IMMEDIATE. The step has
advanced `pc` before any of these runs (42_dispatch R170). -/

namespace Sys2Proof.Machine

/-- HALT (42_dispatch R174). -/
def execHalt (s : State) : Host.Outcome State Fault Refusal := .next s.halt

/-- NOOP (42_dispatch R175): no effect. -/
def execNoop (s : State) : Host.Outcome State Fault Refusal := .next s

/-- MOVE (42_dispatch R176): a stub with no effect. Its arguments are not looked at, an index of 32 or more included. -/
def execMove (_a1 _a2 : Byte) (s : State) : Host.Outcome State Fault Refusal := .next s

/-- LOAD_IMMEDIATE without a prefix: shape (U8, S8) (42_dispatch R177). -/
def execLoadImmediate (n v : Byte) (s : State) : Host.Outcome State Fault Refusal :=
  .next (s.loadImmediate (.real 0x03) [.ofByte .u n, .ofByte .s v])

/-- LOAD_IMMEDIATE after EXT_FIRST: shape (U16, S8) (42_dispatch R177). -/
def execExtFirstLoadImmediate (n : Half) (v : Byte) (s : State) : Host.Outcome State Fault Refusal :=
  .next (s.loadImmediate (.real 0x03) [.ofHalf .u n, .ofByte .s v])

/-- LOAD_IMMEDIATE after EXT_SECOND: shape (U8, S16), the only form that loads a register (42_dispatch R177). -/
def execExtSecondLoadImmediate (n : Byte) (v : Half) (s : State) : Host.Outcome State Fault Refusal :=
  .next (s.loadImmediate (.real 0x03) [.ofByte .u n, .ofHalf .s v])

/-- LOAD_IMMEDIATE after EXT_BOTH: shape (U16, S16) (42_dispatch R177). -/
def execExtBothLoadImmediate (n v : Half) (s : State) : Host.Outcome State Fault Refusal :=
  .next (s.loadImmediate (.real 0x03) [.ofHalf .u n, .ofHalf .s v])

end Sys2Proof.Machine
end

