-- ==== Sys2Proof/Machine/Placeholder.lean ====
section
/-! DEFINITION. The opcodes without a handler (42_dispatch R178): the eleven placeholders of REF, OUT_OF_RANGE, and BOUNDARY, which
no byte decodes to but to which the rule would apply. Their arguments are read by the decoder and then ignored. -/

namespace Sys2Proof.Machine

/-- GEN_U8 (42_dispatch R178). -/
def execGenU8 (_a1 : Byte) (s : State) : Host.Outcome State Fault Refusal := .next (s.unsupported (.real 0x07))

/-- GEN_S8 (42_dispatch R178). -/
def execGenS8 (_a1 : Byte) (s : State) : Host.Outcome State Fault Refusal := .next (s.unsupported (.real 0x08))

/-- GEN_U16 (42_dispatch R178). -/
def execGenU16 (_a1 : Half) (s : State) : Host.Outcome State Fault Refusal := .next (s.unsupported (.real 0x09))

/-- GEN_S16 (42_dispatch R178). -/
def execGenS16 (_a1 : Half) (s : State) : Host.Outcome State Fault Refusal := .next (s.unsupported (.real 0x0A))

/-- GEN_U24 (42_dispatch R178). -/
def execGenU24 (_b0 _b1 _b2 : Byte) (s : State) : Host.Outcome State Fault Refusal := .next (s.unsupported (.real 0x0B))

/-- GEN_S24 (42_dispatch R178). -/
def execGenS24 (_b0 _b1 _b2 : Byte) (s : State) : Host.Outcome State Fault Refusal := .next (s.unsupported (.real 0x0C))

/-- GEN_U8_U8 (42_dispatch R178). -/
def execGenU8U8 (_a1 _a2 : Byte) (s : State) : Host.Outcome State Fault Refusal := .next (s.unsupported (.real 0x0D))

/-- GEN_U8_S8 (42_dispatch R178). -/
def execGenU8S8 (_a1 _a2 : Byte) (s : State) : Host.Outcome State Fault Refusal := .next (s.unsupported (.real 0x0E))

/-- GEN_U8_U16 (42_dispatch R178). -/
def execGenU8U16 (_a1 : Byte) (_a2 : Half) (s : State) : Host.Outcome State Fault Refusal := .next (s.unsupported (.real 0x0F))

/-- GEN_U16_U8 (42_dispatch R178). -/
def execGenU16U8 (_a1 : Half) (_a2 : Byte) (s : State) : Host.Outcome State Fault Refusal := .next (s.unsupported (.real 0x10))

/-- GEN_U8_U8_U8 (42_dispatch R178). -/
def execGenU8U8U8 (_a1 _a2 _a3 : Byte) (s : State) : Host.Outcome State Fault Refusal := .next (s.unsupported (.real 0x11))

/-- OUT_OF_RANGE (42_dispatch R178): the reason does not tell which byte was read. -/
def execOutOfRange (s : State) : Host.Outcome State Fault Refusal := .next (s.unsupported .outOfRange)

/-- BOUNDARY: never decoded (40_opcode_table R101); if it were reached, 42_dispatch R178 would apply to it. -/
def execBoundary (s : State) : Host.Outcome State Fault Refusal := .next (s.unsupported .boundary)

end Sys2Proof.Machine
end

