-- ==== Sys2Proof/Machine/Dispatch.lean ====
section
/-! DEFINITION. Dispatch of an instruction to its meaning (42_dispatch R170): one arm per constructor of Instr. -/

namespace Sys2Proof.Machine

def exec (i : Instr) (s : State) : Host.Outcome State Fault Refusal :=
  match i with
  | .halt => Sys2Proof.Machine.execHalt s
  | .noop => Sys2Proof.Machine.execNoop s
  | .move a1 a2 => Sys2Proof.Machine.execMove a1 a2 s
  | .loadImmediate n v => Sys2Proof.Machine.execLoadImmediate n v s
  | .extFirst op args => Sys2Proof.Machine.execExtFirst op args s
  | .extSecond op args => Sys2Proof.Machine.execExtSecond op args s
  | .extBoth op args => Sys2Proof.Machine.execExtBoth op args s
  | .genU8 a1 => Sys2Proof.Machine.execGenU8 a1 s
  | .genS8 a1 => Sys2Proof.Machine.execGenS8 a1 s
  | .genU16 a1 => Sys2Proof.Machine.execGenU16 a1 s
  | .genS16 a1 => Sys2Proof.Machine.execGenS16 a1 s
  | .genU24 b0 b1 b2 => Sys2Proof.Machine.execGenU24 b0 b1 b2 s
  | .genS24 b0 b1 b2 => Sys2Proof.Machine.execGenS24 b0 b1 b2 s
  | .genU8U8 a1 a2 => Sys2Proof.Machine.execGenU8U8 a1 a2 s
  | .genU8S8 a1 a2 => Sys2Proof.Machine.execGenU8S8 a1 a2 s
  | .genU8U16 a1 a2 => Sys2Proof.Machine.execGenU8U16 a1 a2 s
  | .genU16U8 a1 a2 => Sys2Proof.Machine.execGenU16U8 a1 a2 s
  | .genU8U8U8 a1 a2 a3 => Sys2Proof.Machine.execGenU8U8U8 a1 a2 a3 s
  | .outOfRange => Sys2Proof.Machine.execOutOfRange s
  | .boundary => Sys2Proof.Machine.execBoundary s
  | .extFirstLoadImmediate n v => Sys2Proof.Machine.execExtFirstLoadImmediate n v s
  | .extSecondLoadImmediate n v => Sys2Proof.Machine.execExtSecondLoadImmediate n v s
  | .extBothLoadImmediate n v => Sys2Proof.Machine.execExtBothLoadImmediate n v s

end Sys2Proof.Machine
end

