-- ==== Sys2Proof/Machine/Step.lean ====
section
/-! DEFINITION. One step of the machine of REF (42_dispatch R170), and the placing of an instruction where the next step fetches. -/

namespace Sys2Proof.Machine

/-- `step()` (42_dispatch R170): nothing once the status is terminal (R173); a decode failure writes only `status`
(60_exceptions R211); otherwise `pc` is advanced past the instruction and then the instruction runs. -/
def step (s : State) : Host.Outcome State Fault Refusal :=
  match s.status with
  | .running =>
    match decodeInstr s.buf s.pc with
    | .err r => .next (s.fail r)
    | .ok i next => exec i (s.setPc next)
  | .halted => .next s
  | .failed _ => .next s

/-- `s` with the table word placed in the program buffer at `pc`, where the next step fetches, and Running, without
which no step fetches. It stands for the host's load of a program that has the instruction there (log entry 4). -/
def State.withFetchWord (s : State) (nbits w : Nat) : State :=
  { s with buf := s.buf.placeAt s.pc (tableBytes nbits w), status := .running }

end Sys2Proof.Machine
end

