-- ==== Sys2Proof/Machine/Assembler.lean ====
section
/-! DEFINITION. The bytes of the spec's assembler statements (30_encoding R69) and of its pseudo-instruction `li` (R70), under any
configuration. -/

namespace Sys2Proof.Machine

/-- The statements of 30_encoding R69. `move` carries its argument bytes as `SHAPE_TABLE(MOVE)` gives them. -/
inductive AsmStmt where
  | halt
  | noop
  | move (args : List Byte)
  | loadImm (n v : Byte)
  | extFirst
  | extSecond
  | extBoth
  | bytes (bs : List Byte)
  | li (n : Byte) (v : Int)
deriving DecidableEq, Repr

/-- The statements the spec gives bytes for: `li` takes -32768 to 32767 (30_encoding R70), `move` has the argument bytes of its
shape (30_encoding R69). -/
def AsmStmt.wellFormed (c : Config) : AsmStmt → Bool
  | .li _ v => decide (-32768 ≤ v) && decide (v ≤ 32767)
  | .move args => decide (args.length = Shape.need (c.shapeOf (.real c.ids.move)))
  | .halt => true
  | .noop => true
  | .loadImm _ _ => true
  | .extFirst => true
  | .extSecond => true
  | .extBoth => true
  | .bytes _ => true

/-- `li rN, v` (30_encoding R70): EXT_SECOND, LOAD_IMMEDIATE, N, and the 16-bit pattern of `v`, high byte first. -/
def liBytes (c : Config) (n : Byte) (v : Int) : List Byte :=
  [c.toByte (.real c.ids.extSecond), c.toByte (.real c.ids.loadImmediate), n,
    (BitVec.ofInt 16 v).extractLsb' 8 8, (BitVec.ofInt 16 v).extractLsb' 0 8]

/-- The bytes of one statement. -/
def AsmStmt.assemble (c : Config) : AsmStmt → List Byte
  | .halt => [c.toByte (.real c.ids.halt)]
  | .noop => [c.toByte (.real c.ids.noop)]
  | .move args => c.toByte (.real c.ids.move) :: args
  | .loadImm n v => [c.toByte (.real c.ids.loadImmediate), n, v]
  | .extFirst => [c.toByte (.real c.ids.extFirst)]
  | .extSecond => [c.toByte (.real c.ids.extSecond)]
  | .extBoth => [c.toByte (.real c.ids.extBoth)]
  | .bytes bs => bs
  | .li n v => liBytes c n v

/-- The bytes of a program, one statement after another. -/
def assemble (c : Config) : List AsmStmt → List Byte
  | [] => []
  | st :: rest => st.assemble c ++ assemble c rest

end Sys2Proof.Machine
end

