-- ==== Sys2Proof/Machine/Flags.lean ====
section
/-! DEFINITION. The block has no flags and no condition codes (10_state R28), so no flag is computed anywhere. Its one status
register is `status`; this file gives the bit fields of 10_state R26 as a view of it. -/

namespace Sys2Proof.Machine

/-- 10_state R26: the fields of the status register, at their widths. -/
structure StatusFields where
  state : BitVec 2
  reason : BitVec 3
  op : Byte
  argc : BitVec 2
  bytesNeeded : BitVec 4
  index : Byte
  got : Shape
deriving DecidableEq, Repr

/-- All fields at their load value (10_state R26). -/
def StatusFields.zero : StatusFields :=
  { state := 0, reason := 0, op := 0, argc := 0, bytesNeeded := 0, index := 0, got := [] }

/-- The fields of a `Failed` status by reason (10_state R26, 60_exceptions R212). -/
def failedFields (c : Config) : Reason → StatusFields
  | .endOfProgram => { StatusFields.zero with state := 2, reason := 1 }
  | .truncatedInstruction op argc need =>
    { StatusFields.zero with
      state := 2, reason := 2, op := c.toByte op, argc := BitVec.ofNat 2 argc, bytesNeeded := BitVec.ofNat 4 need }
  | .unsupportedOpcode op => { StatusFields.zero with state := 2, reason := 3, op := c.toByte op }
  | .registerIndexOutOfRange n => { StatusFields.zero with state := 2, reason := 4, index := n }
  | .argumentShapeMismatch op got =>
    { StatusFields.zero with state := 2, reason := 5, op := c.toByte op, got := got }

/-- The fields of a status (10_state R26). -/
def statusFields (c : Config) : Status → StatusFields
  | .running => StatusFields.zero
  | .halted => { StatusFields.zero with state := 1 }
  | .failed r => failedFields c r

end Sys2Proof.Machine
end

