-- ==== Sys2Proof/Machine/Loop.lean ====
section
/-! DEFINITION. The Execution Loop under any configuration (42_dispatch R170 to R173). `stepState` and `runState` are the state transitions of
`step()` and `run()`; `stepAt` and `runAt` are the operations, which refuse an ill-formed configuration (40_opcode_table R109). The
machine of REF in Step.lean is meant to be this one at `Config.ref`. -/

namespace Sys2Proof.Machine

/-- The state transition of `step()` (42_dispatch R170). -/
def stepState (c : Config) (s : State) : State :=
  match s.status with
  | .running =>
    match decode c s.buf s.pc with
    | .err r => s.fail r
    | .ok ins next => dispatch c ins (s.setPc next)
  | .halted => s
  | .failed _ => s

/-- `step()` under a configuration that may fail 40_opcode_table R109, and is then refused. -/
def stepAt (c : Config) (s : State) : Host.Outcome State Fault Refusal :=
  if c.wellFormed = true then .next (stepState c s) else .refused .illFormedConfig

/-- At most `n` steps, stopping once the status is terminal. -/
def runFor (c : Config) : Nat → State → State
  | 0, s => s
  | n + 1, s =>
    match s.status with
    | .running => runFor c n (stepState c s)
    | .halted => s
    | .failed _ => s

/-- The state transition of `run()` (42_dispatch R171). It needs no fuel beyond `L - pc + 1` steps, the rule's own bound; that this
is enough is a statement about the machine, not a part of the definition. -/
def runState (c : Config) (s : State) : State := runFor c (s.buf.length - s.pc + 1) s

/-- `run()` under a configuration that may fail 40_opcode_table R109, and is then refused. -/
def runAt (c : Config) (s : State) : Host.Outcome State Fault Refusal :=
  if c.wellFormed = true then .next (runState c s) else .refused .illFormedConfig

end Sys2Proof.Machine
end

