-- ==== Sys2Proof/Machine/HostPort.lean ====
section
/-! DEFINITION. The host interface (10_state R35): load, step, run and the three reads. Nothing else crosses the block's edge. -/

namespace Sys2Proof.Machine

/-- `load(bytes)` (70_reset R240), at any status. A program longer than `MAX_PROG_LEN` is refused (20_memory R52), and so is
an ill-formed configuration (40_opcode_table R109). The state before the load leaves no trace. -/
def load (c : Config) (bytes : List Byte) (_s : State) : Host.Outcome State Fault Refusal :=
  if c.wellFormed = true then
    if bytes.length ≤ c.maxProgLen then .next (State.loaded c bytes) else .refused (.programTooLong bytes.length)
  else .refused .illFormedConfig

/-- `step()`, the source's `runOnce()` (42_dispatch R172). -/
def runOnce (c : Config) (s : State) : Host.Outcome State Fault Refusal := stepAt c s

/-- `run()` with the final status as its output (42_dispatch R171). Like `stepAt` it refuses an ill-formed configuration. -/
def runToEnd (c : Config) (s : State) : Host.Outcome (State × Status) Fault Refusal :=
  match runAt c s with
  | .next t => .next (t, t.status)
  | .fault r => .fault r
  | .refused r => .refused r

/-- `readReg(i)`. -/
def hostReadReg (s : State) (i : Fin numRegs) : Word := s.readReg i

/-- `readStatus()`. -/
def hostReadStatus (s : State) : Status := s.status

/-- `readStatus()` as the bit fields of 10_state R26. -/
def hostReadStatusFields (c : Config) (s : State) : StatusFields := statusFields c s.status

/-- `readPc()`. -/
def hostReadPc (s : State) : Nat := s.pc

end Sys2Proof.Machine
end

