-- ==== Sys2Proof/Machine/MicroSequence.lean ====
section
/-! DEFINITION. The decoder's reference micro-sequence (41_decoder R143): the fetch-decode state machine with its extension latch
and local cursor (10_state R31). It is not architecturally visible; no state of it survives a decode. -/

namespace Sys2Proof.Machine

/-- The states of 41_decoder R143; `arg i` is `ARG(i)`, from 1. -/
inductive MicroState where
  | op0
  | op1
  | shape
  | arg (i : Nat)
  | emit
deriving DecidableEq, Repr

/-- What the decoder holds inside one decode: the cursor `a`, the latch `ext`, the opcode, the resolved shape and the arguments
taken so far. -/
structure MicroRegs where
  a : Nat
  ext : Ext
  op : Opcode
  shape : Shape
  args : List Arg
deriving DecidableEq, Repr

/-- One internal state's action: go on, or emit the decode's outcome. -/
inductive MicroNext where
  | goto (st : MicroState) (r : MicroRegs)
  | done (result : DecodeResult Decoded)
deriving DecidableEq, Repr

/-- The table of 41_decoder R143, row by row. -/
def microStep (c : Config) (m : Memory) (st : MicroState) (r : MicroRegs) : MicroNext :=
  match st with
  | .op0 =>
    match m.read r.a with
    | none => .done (.err .endOfProgram)
    | some b =>
      let op := c.fromByte b
      .goto (if c.isExt op then .op1 else .shape) { r with op := op, a := r.a + 1 }
  | .op1 =>
    match m.read r.a with
    | none => .done (.err .endOfProgram)
    | some b => .goto .shape { r with ext := c.extOf r.op, op := c.fromByte b, a := r.a + 1 }
  | .shape =>
    let shape := Shape.widen (c.shapeOf r.op) r.ext
    let need := Shape.need shape
    if m.length < r.a + need then .done (.err (.truncatedInstruction r.op shape.length need))
    else .goto (if shape.length = 0 then .emit else .arg 1) { r with shape := shape }
  | .arg i =>
    match r.shape[i - 1]? with
    | some sp =>
      .goto (if i < r.shape.length then .arg (i + 1) else .emit)
        { r with args := r.args ++ [{ spec := sp, bytes := m.slice r.a sp.w.bytes }], a := r.a + sp.w.bytes }
    | none => .goto .emit r
  | .emit => .done (.ok { op := r.op, args := r.args } r.a)

/-- At most `n` internal states; `none` when they do not reach an outcome. -/
def microRun (c : Config) (m : Memory) : Nat → MicroState → MicroRegs → Option (DecodeResult Decoded)
  | 0, _, _ => none
  | n + 1, st, r =>
    match microStep c m st r with
    | .done result => some result
    | .goto st' r' => microRun c m n st' r'

/-- The longest path: OP0, OP1, SHAPE, ARG(1) to ARG(3), EMIT. -/
def microLimit : Nat := 7

/-- A decode by the micro-sequence, from a cleared latch at `OP0`. -/
def microDecode (c : Config) (m : Memory) (pc : Nat) : Option (DecodeResult Decoded) :=
  microRun c m microLimit .op0 { a := pc, ext := .none, op := .outOfRange, shape := [], args := [] }

end Sys2Proof.Machine
end

