-- ==== Sys2Proof/Machine/Trace.lean ====
section
/-! DEFINITION. The optional trace port (42_dispatch R181): the event a step emits. It writes no state and nothing reads it. -/

namespace Sys2Proof.Machine

/-- The `outcome` of an event: `Decoded(ins, pcAfter)` then `Dispatched(status)`, or `DecodeFailed(reason)`. -/
inductive TraceOutcome where
  | decoded (ins : Decoded) (pcAfter : Nat) (dispatched : Status)
  | decodeFailed (reason : Reason)
deriving DecidableEq, Repr

/-- One event of the trace port. -/
structure TraceEvent where
  pcBefore : Nat
  outcome : TraceOutcome
deriving DecidableEq, Repr

/-- The event of the step from `s`: one when it starts in Running, none otherwise. Under an ill-formed configuration there is no
step (40_opcode_table R109) and so no event. -/
def traceEvent (c : Config) (s : State) : Option TraceEvent :=
  if c.wellFormed = true then
    match s.status with
    | .running =>
      match decode c s.buf s.pc with
      | .err r => some { pcBefore := s.pc, outcome := .decodeFailed r }
      | .ok ins next =>
        some { pcBefore := s.pc, outcome := .decoded ins next (dispatch c ins (s.setPc next)).status }
    | .halted => none
    | .failed _ => none
  else none

end Sys2Proof.Machine
end

