-- ==== Sys2Proof/Safety.lean ====
section
/-! DEFINITION. What the machine must keep true and what counts as a safe run, in the terms the statements use, under any
configuration. -/

namespace Sys2Proof

/-- Halted or Failed (00_scope R11 "Terminal status"). -/
def Status.terminal : Status → Bool
  | .running => false
  | .halted => true
  | .failed _ => true

end Sys2Proof

namespace Sys2Proof.Machine

/-- A failure reason that the machine can record (60_exceptions R212): the payload is one that its rule gives. -/
def ReasonLegal (c : Config) : Reason → Prop
  | .endOfProgram => True
  | .truncatedInstruction op argc need =>
    c.fetchable op = true ∧
      ∃ e : Ext, argc = (Shape.widen (c.shapeOf op) e).length ∧ need = Shape.need (Shape.widen (c.shapeOf op) e)
  | .unsupportedOpcode op => c.fetchable op = true ∧ c.handlerOf op = .unsupported
  | .registerIndexOutOfRange n => numRegs ≤ n.toNat
  | .argumentShapeMismatch op got =>
    op = .real c.ids.loadImmediate ∧ (got = [.u8, .s8] ∨ got = [.u16, .s8] ∨ got = [.u16, .s16])

/-- A status the machine can hold (10_state R26). -/
def StatusLegal (c : Config) : Status → Prop
  | .running => True
  | .halted => True
  | .failed r => ReasonLegal c r

/-- The machine's invariant: the buffer is in canonical form and no longer than `MAX_PROG_LEN` (20_memory R40),
`pc` is at most `L` (10_state R23), and the status is legal (10_state R26). -/
structure State.Inv (c : Config) (s : State) : Prop where
  bufWf : s.buf.wf = true
  bufFits : s.buf.length ≤ c.maxProgLen
  pcInBuf : s.pc ≤ s.buf.length
  statusLegal : StatusLegal c s.status

/-- A safe run: from `s`, `run` is not refused and ends by HALT, "the only normal, successful termination"
(42_dispatch R174). -/
def RunsToHalt (c : Config) (s : State) : Prop := ∃ t, runAt c s = .next t ∧ t.status = .halted

end Sys2Proof.Machine
end

