-- ==== Sys2Proof/Certificates/Slice0/Obligations.lean ====
section
/-! DEFINITION. The statements for the provers. Statements about `exec`, `step`, `decodeInstr`, `encode` and the table word are about
the machine of REF; all others hold under every well-formed configuration (40_opcode_table R109, with the check of log entry 11). Where a clause is a
decision or a derivation of the spec, the docstring names it and OBLIGATIONS.json cites sections, not the rule. -/

open Sys2Proof Sys2Proof.Machine

/-! ### Reset, load and the configuration -/

/-- The state right after reset: 10_state section 7. The program is the one of length 0 (nothing is loaded yet) and the registers hold
REF's REG_RESET, all zero: both are choices (92_eei_decisions D14, log entries 3 and 4). -/
def Obligations.ResetIsEmptyProgramAtOffsetZero : Prop :=
  State.reset.pc = 0 ∧ State.reset.status = .running ∧ State.reset.buf.length = 0 ∧
    (∀ a, State.reset.buf.read a = none) ∧ ∀ i : Fin numRegs, State.reset.readReg i = 0

/-- An admitted load replaces the whole state, whatever it was (70_reset section 1; 92_eei_decisions D14, D15). The register values are the
configuration's REG_RESET, over which the statement quantifies. -/
def Obligations.LoadReplacesTheWholeState : Prop :=
  ∀ (c : Config) (bytes : List Byte) (s : State), c.wellFormed = true → bytes.length ≤ c.maxProgLen →
    ∃ t, load c bytes s = .next t ∧ t.pc = 0 ∧ t.status = .running ∧ t.buf.length = bytes.length ∧
      (∀ a, t.buf.read a = bytes[a]?) ∧ ∀ i : Fin numRegs, (t.readReg i).toInt = c.regReset.getD i.val 0

/-- A load of more than MAX_PROG_LEN bytes is refused (20_memory section 6; 92_eei_decisions D16). -/
def Obligations.LongLoadIsRefused : Prop :=
  ∀ (c : Config) (bytes : List Byte) (s : State), c.wellFormed = true → c.maxProgLen < bytes.length →
    load c bytes s = .refused (.programTooLong bytes.length)

/-- An ill-formed configuration is refused (40_opcode_table section 6), REF is well formed, and a well-formed one is never refused a step
or a run. That step, run and load are what refuses, that there is then no trace event, and that `wellFormed` asks besides the named
checks for a table of exactly K entries (`wfTableTotal`), is the model's reading (DEDUCED, log entry 11). -/
def Obligations.IllFormedConfigurationIsRefused : Prop :=
  Config.ref.wellFormed = true ∧
    ∀ (c : Config) (s : State) (bytes : List Byte),
      (c.wellFormed = false →
        stepAt c s = .refused .illFormedConfig ∧ runOnce c s = .refused .illFormedConfig ∧
        runAt c s = .refused .illFormedConfig ∧ runToEnd c s = .refused .illFormedConfig ∧
        load c bytes s = .refused .illFormedConfig ∧ traceEvent c s = none) ∧
      (c.wellFormed = true →
        stepAt c s = .next (stepState c s) ∧ runOnce c s = .next (stepState c s) ∧ runAt c s = .next (runState c s) ∧
        runToEnd c s = .next (runState c s, (runState c s).status))

/-- 42_dispatch R180: what a program leaves in the registers, `pc` and `status` depends on the configuration and the program
bytes alone, not on what the instance did before the load. -/
def Obligations.FinalStateIsAFunctionOfTheProgram : Prop :=
  ∀ (c : Config) (bytes : List Byte) (s1 s2 t1 t2 : State), load c bytes s1 = .next t1 → load c bytes s2 = .next t2 →
    (runState c t1).x = (runState c t2).x ∧ (runState c t1).pc = (runState c t2).pc ∧ (runState c t1).status = (runState c t2).status ∧
      ∀ n, runFor c n t1 = runFor c n t2

/-- 20_memory R40: one byte-addressed buffer at offsets below `L`; no step and no run writes it; only an admitted load, of at
most MAX_PROG_LEN bytes, replaces it, as a whole. -/
def Obligations.OnlyLoadWritesTheBuffer : Prop :=
  ∀ (c : Config) (s : State), c.wellFormed = true →
    (stepState c s).buf = s.buf ∧ (runState c s).buf = s.buf ∧ (∀ t, step s = .next t → t.buf = s.buf) ∧
    (∀ a, (s.buf.read a).isSome = true ↔ a < s.buf.length) ∧
    ∀ bytes t, load c bytes s = .next t →
      bytes.length ≤ c.maxProgLen ∧ t.buf.length = bytes.length ∧ ∀ a, t.buf.read a = bytes[a]?

/-- The canonical form makes equal buffers equal data (the model's own form of 20_memory section 1, log entry 1). -/
def Obligations.CanonicalBuffersWithEqualBytesAreEqual : Prop :=
  ∀ m1 m2 : Memory, m1.wf = true → m2.wf = true → (∀ a, m1.read a = m2.read a) → m1 = m2

/-! ### Opcode table -/

/-- 40_opcode_table R101, its corner cases and its REF examples. BOUNDARY is never fetched, so no decode has it as its opcode, nor
does the failure of a truncated one name it; and a step dispatches decoded opcodes only. -/
def Obligations.FromByteIsATotalBoundsCheck : Prop :=
  (∀ (c : Config) (b : Byte), c.wellFormed = true →
    (b.toNat < c.K → c.fromByte b = .real b.toNat) ∧ (c.K ≤ b.toNat → c.fromByte b = .outOfRange) ∧
    c.fromByte b ≠ .boundary ∧ c.fromByte 255 = .outOfRange ∧ c.fromByte (BitVec.ofNat 8 c.K) = .outOfRange ∧
    c.fromByte (BitVec.ofNat 8 (c.K - 1)) = .real (c.K - 1)) ∧
  (∀ (c : Config) (m : Memory) (pc : Nat), c.wellFormed = true →
    (∀ ins next, decode c m pc = .ok ins next → ins.op ≠ .boundary) ∧
    (∀ op argc need, decode c m pc = .err (.truncatedInstruction op argc need) → op ≠ .boundary) ∧
    ∀ s : State, s.buf = m → s.pc = pc → stepState c s = s ∨ (∃ r, stepState c s = s.fail r) ∨
      ∃ ins next, ins.op ≠ .boundary ∧ stepState c s = dispatch c ins (s.setPc next)) ∧
  Config.ref.fromByte 0x11 = .real 17 ∧ Config.ref.fromByte 0x12 = .outOfRange ∧ Config.ref.fromByte 0xFF = .outOfRange

/-- `toByte` and the round trips (40_opcode_table section 3: derived there; the last clause is 92_eei_decisions D4). -/
def Obligations.OpcodeBytesRoundTrip : Prop :=
  ∀ c : Config, c.wellFormed = true →
    (∀ op, c.fetchable op = true → c.fromByte (c.toByte op) = op) ∧
    c.fromByte (c.toByte .boundary) = .outOfRange ∧ c.toByte .outOfRange = 255 ∧
    (∀ b : Byte, c.toByte (c.fromByte b) = if b.toNat < c.K then b else 255) ∧
    ∀ op1 op2, (c.fetchable op1 = true ∨ op1 = .boundary) → (c.fetchable op2 = true ∨ op2 = .boundary) →
      c.toByte op1 = c.toByte op2 → op1 = op2

/-- 40_opcode_table R104: consistency of a descriptor, the list a consistent one stands for, the sign fields beyond `argc`, and the
refusal of a table that holds an inconsistent one. -/
def Obligations.ConsistentDescriptorIsItsShape : Prop :=
  (∀ d : ShapeDesc,
    (d.consistent = true ↔
      ((d.w1 ≠ none ↔ 1 ≤ d.argc.val) ∧ (d.w2 ≠ none ↔ 2 ≤ d.argc.val) ∧ (d.w3 ≠ none ↔ 3 ≤ d.argc.val))) ∧
    (d.consistent = true →
      d.toShape.length = d.argc.val ∧
      (∀ sp, d.toShape[0]? = some sp → d.w1 = some sp.w ∧ d.s1 = sp.s) ∧
      (∀ sp, d.toShape[1]? = some sp → d.w2 = some sp.w ∧ d.s2 = sp.s) ∧
      (∀ sp, d.toShape[2]? = some sp → d.w3 = some sp.w ∧ d.s3 = sp.s) ∧
      (d.argc.val < 3 → ∀ sg, { d with s3 := sg }.toShape = d.toShape) ∧
      (d.argc.val < 2 → ∀ sg, { d with s2 := sg }.toShape = d.toShape) ∧
      (d.argc.val < 1 → ∀ sg, { d with s1 := sg }.toShape = d.toShape))) ∧
  ∀ (c : Config) (d : ShapeDesc) (s : State), d ∈ c.shapeTable → d.consistent = false →
    stepAt c s = .refused .illFormedConfig

/-- The widening function, argument by argument (41_decoder section 3; a widened three-argument shape is 92_eei_decisions D9). -/
def Obligations.WideningIsExact : Prop :=
  ∀ (sh : Shape) (e : Ext),
    (Shape.widen sh e).length = sh.length ∧ Shape.widen sh .none = sh ∧
    ∀ (k : Nat) (sp : ArgSpec), sh[k]? = some sp →
      (Shape.widen sh e)[k]? = some
        { w := if ((k = 0 ∧ (e = .first ∨ e = .both)) ∨ (k = 1 ∧ (e = .second ∨ e = .both))) ∧ sp.w = .w8
            then .w16 else sp.w
          s := sp.s }

/-- The bounds of every resolved shape (10_state section 4, derived there): at most 3 arguments and 6 argument bytes, so that an
instruction is at most 8 bytes long (30_encoding section 2, derived there). -/
def Obligations.ResolvedShapesAreBounded : Prop :=
  ∀ (c : Config) (op : Opcode) (e : Ext), c.wellFormed = true →
    (Shape.widen (c.shapeOf op) e).length ≤ 3 ∧ Shape.need (Shape.widen (c.shapeOf op) e) ≤ 6

/-- 30_encoding R65: the value each field delivers and its range, and the one widening of a value, at dispatch. The signed values are
stated by `BitVec.toInt`. -/
def Obligations.ArgumentValuesAreAsTabulated : Prop :=
  ∀ (b0 b1 b2 : Byte) (sg : Sign),
    Arg.value { spec := .u8, bytes := [b0] } = .int b0.toNat ∧ b0.toNat ≤ 255 ∧
    Arg.value { spec := .s8, bytes := [b0] } = .int b0.toInt ∧ -128 ≤ b0.toInt ∧ b0.toInt ≤ 127 ∧
    Arg.value { spec := .u16, bytes := [b0, b1] } = .int (b0.toNat * 256 + b1.toNat) ∧
    b0.toNat * 256 + b1.toNat ≤ 65535 ∧
    Arg.value { spec := .s16, bytes := [b0, b1] } = .int (b0 ++ b1).toInt ∧
    -32768 ≤ (b0 ++ b1).toInt ∧ (b0 ++ b1).toInt ≤ 32767 ∧
    Arg.value { spec := { w := .w24, s := sg }, bytes := [b0, b1, b2] } = .raw b0 b1 b2 ∧
    sext32 (b0 ++ b1).toInt = (b0 ++ b1).signExtend 32 ∧
    ∀ s : State, b0.toNat < numRegs →
      s.loadImmediate (.real 0x03) [{ spec := .u8, bytes := [b0] }, { spec := .s16, bytes := [b1, b2] }]
        = { s with x := s.x.setIfInBounds b0.toNat ((b1 ++ b2).signExtend 32) }

/-! ### Decoder -/

/-- 41_decoder R132, R133, R134: what a prefix does to the instruction after it, its failures, its length, which arguments it widens
and with which sign, and the rules' three REF examples. The payload of a truncation is `TruncationExactlyWhenArgumentsDoNotFit`'s. -/
def Obligations.PrefixWidensTheNextInstruction : Prop :=
  (∀ (c : Config) (e : Ext) (m : Memory) (pc : Nat) (b1 : Byte), c.wellFormed = true →
    ((e = .first ∧ b1 = c.toByte (.real c.ids.extFirst)) ∨ (e = .second ∧ b1 = c.toByte (.real c.ids.extSecond)) ∨
      (e = .both ∧ b1 = c.toByte (.real c.ids.extBoth))) →
    m.read pc = some b1 →
    c.shapeOf (c.fromByte b1) = [] ∧
    (m.read (pc + 1) = none → decode c m pc = .err .endOfProgram) ∧
    ∀ b2, m.read (pc + 1) = some b2 →
      let op := c.fromByte b2
      let shape := Shape.widen (c.shapeOf op) e
      (m.length < pc + 2 + Shape.need shape →
        ∃ op' argc need, decode c m pc = .err (.truncatedInstruction op' argc need)) ∧
      (pc + 2 + Shape.need shape ≤ m.length →
        ∃ args, decode c m pc = .ok { op := op, args := args } (pc + 2 + Shape.need shape) ∧
          args.map Arg.spec = shape) ∧
      shape.length = (c.shapeOf op).length ∧
      ∀ (k : Nat) (sp : ArgSpec), (c.shapeOf op)[k]? = some sp →
        shape[k]? = some
          { w := if sp.w = .w8 ∧ ((k = 0 ∧ e ≠ .second) ∨ (k = 1 ∧ e ≠ .first)) then .w16 else sp.w
            s := sp.s }) ∧
  decode Config.ref (Memory.ofBytes [0x04, 0x07, 0x01, 0x02]) 0
    = .ok { op := .real 7, args := [{ spec := .u16, bytes := [0x01, 0x02] }] } 4 ∧
  decode Config.ref (Memory.ofBytes [0x05, 0x03, 0x00, 0x01, 0xF4]) 0
    = .ok { op := .real 3, args := [{ spec := .u8, bytes := [0x00] }, { spec := .s16, bytes := [0x01, 0xF4] }] } 5 ∧
  decode Config.ref (Memory.ofBytes [0x06, 0x11, 0x00, 0x01, 0x00, 0x02, 0x03]) 0
    = .ok { op := .real 17, args := [{ spec := .u16, bytes := [0x00, 0x01] }, { spec := .u16, bytes := [0x00, 0x02] },
        { spec := .u8, bytes := [0x03] }] } 7

/-- Prefixes do not chain (41_decoder section 3; the spec's decision 92_eei_decisions D8): a prefix after a prefix is the opcode, two
bytes long, and fails at dispatch with `pc` past it (D7), with that opcode as the payload (D18, log entry 7). -/
def Obligations.PrefixAfterPrefixIsUnsupported : Prop :=
  ∀ (c : Config) (s : State) (b1 b2 : Byte), c.wellFormed = true → s.status = .running →
    s.buf.read s.pc = some b1 → s.buf.read (s.pc + 1) = some b2 →
    c.isExt (c.fromByte b1) = true → c.isExt (c.fromByte b2) = true →
    decode c s.buf s.pc = .ok { op := c.fromByte b2, args := [] } (s.pc + 2) ∧
    stepState c s = { s with pc := s.pc + 2, status := .failed (.unsupportedOpcode (c.fromByte b2)) }

/-- EndOfProgram in exactly two cases (41_decoder section 5), and `pc` is not advanced (92_eei_decisions D6). -/
def Obligations.EndOfProgramInExactlyTwoCases : Prop :=
  ∀ (c : Config) (s : State), c.wellFormed = true → s.pc ≤ s.buf.length →
    (decode c s.buf s.pc = .err .endOfProgram ↔
      s.pc = s.buf.length ∨
        ∃ b, s.buf.read s.pc = some b ∧ c.isExt (c.fromByte b) = true ∧ s.pc + 1 = s.buf.length) ∧
    (s.status = .running → decode c s.buf s.pc = .err .endOfProgram →
      stepState c s = { s with status := .failed .endOfProgram })

/-- TruncatedInstruction exactly when the argument bytes of the resolved shape run past the buffer, with the opcode after any prefix, the
count and the byte total (41_decoder section 5; the payload is 92_eei_decisions D10). -/
def Obligations.TruncationExactlyWhenArgumentsDoNotFit : Prop :=
  ∀ (c : Config) (m : Memory) (pc : Nat) (op : Opcode) (argc need : Nat), c.wellFormed = true →
    (decode c m pc = .err (.truncatedInstruction op argc need) ↔
      (∃ (e : Ext) (a : Nat),
        ((∃ b, m.read pc = some b ∧ c.isExt (c.fromByte b) = false ∧ e = .none ∧ op = c.fromByte b ∧ a = pc + 1) ∨
          (∃ b b2, m.read pc = some b ∧ c.isExt (c.fromByte b) = true ∧ e = c.extOf (c.fromByte b) ∧
            m.read (pc + 1) = some b2 ∧ op = c.fromByte b2 ∧ a = pc + 2)) ∧
        argc = (Shape.widen (c.shapeOf op) e).length ∧ need = Shape.need (Shape.widen (c.shapeOf op) e) ∧
        m.length < a + need))

/-- The outcomes of a decode (41_decoder section 6, derived there): an instruction that ends inside the buffer and whose length is
`p + 1 + need`, or one of the two failures. -/
def Obligations.DecodeStaysInTheBuffer : Prop :=
  ∀ (c : Config) (m : Memory) (pc : Nat), c.wellFormed = true → pc ≤ m.length →
    (∃ ins next p, decode c m pc = .ok ins next ∧ p ≤ 1 ∧
      next = pc + p + 1 + Shape.need (ins.args.map Arg.spec) ∧ next ≤ m.length) ∨
    decode c m pc = .err .endOfProgram ∨
    ∃ op argc need, decode c m pc = .err (.truncatedInstruction op argc need)

/-- 41_decoder R140: only insufficient bytes fail a decode; a byte at or above `K` decodes as OUT_OF_RANGE without arguments and is
rejected only by dispatch; an opcode without a name decodes by its shape. -/
def Obligations.NoByteValueFailsDecoding : Prop :=
  ∀ (c : Config) (m : Memory) (pc : Nat), c.wellFormed = true →
    (∀ r, decode c m pc = .err r →
      (r = .endOfProgram ∧ m.length ≤ pc + 1) ∨
        ∃ op argc need, r = .truncatedInstruction op argc need ∧ m.length < pc + 2 + need) ∧
    (∀ b, m.read pc = some b → c.K ≤ b.toNat →
      decode c m pc = .ok { op := .outOfRange, args := [] } (pc + 1) ∧
      ∀ s : State, s.buf = m → s.pc = pc → s.status = .running →
        ∃ op, (stepState c s).status = .failed (.unsupportedOpcode op)) ∧
    ∀ b, m.read pc = some b → c.isExt (c.fromByte b) = false →
      pc + 1 + Shape.need (c.shapeOf (c.fromByte b)) ≤ m.length →
      ∃ args, decode c m pc = .ok { op := c.fromByte b, args := args } (pc + 1 + Shape.need (c.shapeOf (c.fromByte b))) ∧
        args.map Arg.spec = c.shapeOf (c.fromByte b)

/-- A successful decode depends on no byte outside the instruction (41_decoder section 6, derived there): another buffer that has the
same bytes there decodes to the same. -/
def Obligations.DecodeReadsOnlyTheInstruction : Prop :=
  ∀ (c : Config) (m1 m2 : Memory) (pc next : Nat) (ins : Decoded), c.wellFormed = true → decode c m1 pc = .ok ins next →
    (∀ a, pc ≤ a → a < next → m2.read a = m1.read a) → decode c m2 pc = .ok ins next

/-- The decoded arguments match a resolved shape exactly and hold the buffer's bytes in stream order (41_decoder section 4, derived
there). -/
def Obligations.DecodedArgumentsMatchTheResolvedShape : Prop :=
  ∀ (c : Config) (m : Memory) (pc next : Nat) (ins : Decoded), c.wellFormed = true → decode c m pc = .ok ins next →
    (∃ e : Ext, ins.args.map Arg.spec = Shape.widen (c.shapeOf ins.op) e) ∧ Arg.allSized ins.args = true ∧
    Arg.allBytes ins.args
      = m.slice (next - Shape.need (ins.args.map Arg.spec)) (Shape.need (ins.args.map Arg.spec))

/-- The reference micro-sequence gives exactly the outcome of the decode function (41_decoder section 7; 92_eei_decisions D28). -/
def Obligations.MicroSequenceImplementsDecode : Prop :=
  ∀ (c : Config) (m : Memory) (pc : Nat), c.wellFormed = true → microDecode c m pc = some (decode c m pc)

/-! ### Encoding in REF -/

/-- Decoding the encoding of a well-formed instruction, wherever it stands in a buffer, gives it back with every operand
(30_encoding sections 1 and 2, 41_decoder section 2). -/
def Obligations.DecodeOfEncodeIsTheInstruction : Prop :=
  ∀ (i : Instr) (pre post : List Byte), i.wellFormed = true →
    decodeInstr (Memory.ofBytes (pre ++ encode i ++ post)) pre.length = .ok i (pre.length + i.length) ∧
      (encode i).length = i.length

/-- Every decoded instruction is well formed and its encoding is the bytes it was read from, but for OUT_OF_RANGE, which stands for
every byte from `K` on (40_opcode_table section 3). -/
def Obligations.EncodeOfDecodeIsTheBytes : Prop :=
  ∀ (m : Memory) (pc next : Nat) (i : Instr), decodeInstr m pc = .ok i next →
    i.wellFormed = true ∧ next = pc + i.length ∧
      (i.resolved.op ≠ .outOfRange → m.slice pc i.length = encode i)

/-- The machine's reading of instructions is the spec's decode at REF: same opcode, same arguments, same offsets, same failures
(41_decoder section 2, 40_opcode_table section 7). -/
def Obligations.InstrDecoderRefinesDecode : Prop :=
  ∀ (m : Memory) (pc : Nat), (decodeInstr m pc).map Instr.resolved = decode Config.ref m pc

/-- Words written out from 30_encoding section 2 and 40_opcode_table section 7 decode to the instructions they stand for. -/
def Obligations.WrittenOutWordsDecode : Prop :=
  decodeInstr (Memory.ofBytes [0b00000000]) 0 = .ok .halt 1 ∧
  decodeInstr (Memory.ofBytes [0b00000010, 0b00000101, 0b00000110]) 0 = .ok (.move 5 6) 3 ∧
  decodeInstr (Memory.ofBytes [0b00000101, 0b00000011, 0b00000000, 0b00000001, 0b11110100]) 0
    = .ok (.extSecondLoadImmediate 0 500) 5 ∧
  decodeInstr (Memory.ofBytes [0b00010000, 0b00010010, 0b00110100, 0b01010110]) 0 = .ok (.genU16U8 0x1234 0x56) 4 ∧
  decodeInstr (Memory.ofBytes [0b00010010]) 0 = .ok .outOfRange 1

/-- A table word placed where the next step fetches is the instruction that step runs (the model's own interface, log entries 4 and 5). -/
def Obligations.PlacedTableWordIsWhatTheStepRuns : Prop :=
  ∀ (s : State) (nbits w : Nat) (i : Instr), decodeTableWord nbits w = some i →
    step (s.withFetchWord nbits w)
      = exec i { s with
          buf := s.buf.placeAt s.pc (tableBytes nbits w), pc := s.pc + i.length, status := .running }

/-! ### The instructions of REF -/

/-- HALT completes: `status <- Halted` and nothing else (42_dispatch section 2). -/
def Obligations.HaltWritesOnlyTheStatus : Prop :=
  ∀ s : State, exec .halt s = .next { s with status := .halted }

/-- NOOP and MOVE complete without any effect, MOVE with every index (42_dispatch section 2; 92_eei_decisions D27). -/
def Obligations.NoopAndMoveHaveNoEffect : Prop :=
  ∀ (s : State) (a1 a2 : Byte), exec .noop s = .next s ∧ exec (.move a1 a2) s = .next s

/-- The dispatchable LOAD_IMMEDIATE completes: the sign-extended immediate in the register and nothing else, or, from index 32 on, the
failure and nothing else (42_dispatch section 2). -/
def Obligations.LoadImmediateWritesTheSignExtendedValue : Prop :=
  ∀ (s : State) (n : Byte) (v : Half),
    (∀ h : n.toNat < numRegs,
      exec (.extSecondLoadImmediate n v) s = .next { s with x := s.x.set n.toNat (v.signExtend 32) h }) ∧
    (numRegs ≤ n.toNat →
      exec (.extSecondLoadImmediate n v) s = .next { s with status := .failed (.registerIndexOutOfRange n) })

/-- 60_exceptions R216: RegisterIndexOutOfRange exactly for an index of 32 or more, and it is fatal: no later step changes anything. -/
def Obligations.RegisterIndexFailureFromThirtyTwoOn : Prop :=
  ∀ (s : State) (n : Byte) (v : Half), s.status = .running →
    ∃ t, exec (.extSecondLoadImmediate n v) s = .next t ∧
      ((∃ k, t.status = .failed (.registerIndexOutOfRange k)) ↔ 32 ≤ n.toNat) ∧
      (32 ≤ n.toNat → step t = .next t ∧ ∀ c : Config, c.wellFormed = true → runAt c t = .next t)

/-- The other three forms of LOAD_IMMEDIATE complete with the shape failure and nothing else, whatever the index (42_dispatch section 2;
92_eei_decisions D12, D13, D18). -/
def Obligations.OtherLoadImmediateShapesMismatch : Prop :=
  ∀ (s : State) (n v : Byte) (h k : Half),
    exec (.loadImmediate n v) s
      = .next { s with status := .failed (.argumentShapeMismatch (.real 0x03) [.u8, .s8]) } ∧
    exec (.extFirstLoadImmediate h v) s
      = .next { s with status := .failed (.argumentShapeMismatch (.real 0x03) [.u16, .s8]) } ∧
    exec (.extBothLoadImmediate h k) s
      = .next { s with status := .failed (.argumentShapeMismatch (.real 0x03) [.u16, .s16]) }

/-- The opcodes without a handler complete with UnsupportedOpcode and nothing else, whatever their arguments (42_dispatch section 2;
92_eei_decisions D18; the placeholders are REF's, D2). -/
def Obligations.OpcodesWithoutAHandlerAreUnsupported : Prop :=
  ∀ (s : State) (a b d : Byte) (h : Half),
    let failed := fun op : Opcode =>
      (.next { s with status := .failed (.unsupportedOpcode op) } : Host.Outcome State Fault Refusal)
    exec (.genU8 a) s = failed (.real 0x07) ∧ exec (.genS8 a) s = failed (.real 0x08) ∧
    exec (.genU16 h) s = failed (.real 0x09) ∧ exec (.genS16 h) s = failed (.real 0x0A) ∧
    exec (.genU24 a b d) s = failed (.real 0x0B) ∧ exec (.genS24 a b d) s = failed (.real 0x0C) ∧
    exec (.genU8U8 a b) s = failed (.real 0x0D) ∧ exec (.genU8S8 a b) s = failed (.real 0x0E) ∧
    exec (.genU8U16 a h) s = failed (.real 0x0F) ∧ exec (.genU16U8 h a) s = failed (.real 0x10) ∧
    exec (.genU8U8U8 a b d) s = failed (.real 0x11) ∧
    exec .outOfRange s = failed .outOfRange ∧ exec .boundary s = failed .boundary

/-- A prefixed instruction completes with the effect of the opcode after the prefix: HALT halts, NOOP and MOVE do nothing, and every
other opcode, a prefix included, is unsupported (42_dispatch section 2; 92_eei_decisions D8, D18). A prefixed LOAD_IMMEDIATE is
`extFirstLoadImmediate` and its two neighbours. -/
def Obligations.PrefixedInstructionRunsTheOpcodeAfterThePrefix : Prop :=
  ∀ (s : State) (op : Opcode) (args : List Arg) (i : Instr),
    (i = .extFirst op args ∨ i = .extSecond op args ∨ i = .extBoth op args) →
    (op = .real 0x00 → exec i s = .next { s with status := .halted }) ∧
    (op = .real 0x01 ∨ op = .real 0x02 → exec i s = .next s) ∧
    (op ≠ .real 0x00 → op ≠ .real 0x01 → op ≠ .real 0x02 → op ≠ .real 0x03 →
      exec i s = .next { s with status := .failed (.unsupportedOpcode op) })

/-- The frame of every instruction: no instruction stores to the buffer or writes `pc`; the only register written is the destination
of the dispatchable LOAD_IMMEDIATE; the status is written by HALT and by a failure only, and an instruction that fails writes no
register (42_dispatch section 2, 60_exceptions section 1). -/
def Obligations.InstructionFrame : Prop :=
  ∀ (i : Instr) (s t : State), i.wellFormed = true ∨ i = .boundary → exec i s = .next t →
    (∀ a, t.buf.read a = s.buf.read a) ∧ t.buf = s.buf ∧ t.pc = s.pc ∧
    (∀ r : Fin numRegs, t.readReg r ≠ s.readReg r →
      ∃ n v, i = .extSecondLoadImmediate n v ∧ n.toNat = r.val ∧ t.status = s.status) ∧
    ((i.resolved.op = .real 0x01 ∨ i.resolved.op = .real 0x02 ∨
        ∃ n v, i = .extSecondLoadImmediate n v ∧ n.toNat < numRegs) → t.status = s.status)

/-! ### The step -/

/-- A Running step of the machine of REF on an instruction it can decode: `pc` moves past it, then it runs (42_dispatch section 1). -/
def Obligations.StepRunsTheDecodedInstruction : Prop :=
  ∀ (s : State) (i : Instr) (next : Nat), s.status = .running → decodeInstr s.buf s.pc = .ok i next →
    step s = exec i { s with pc := next }

/-- A Running step on a decode failure: the status and nothing else (42_dispatch section 1; `pc` unchanged is 92_eei_decisions D6). -/
def Obligations.StepRecordsADecodeFailure : Prop :=
  ∀ (s : State) (r : Reason), s.status = .running → decodeInstr s.buf s.pc = .err r →
    step s = .next { s with status := .failed r }

/-- The machine of REF is the machine of any configuration at REF: the typed instructions and their meanings refine the spec's step
(42_dispatch section 1, 40_opcode_table section 7). -/
def Obligations.StepIsTheAnyConfigurationStepAtRef : Prop :=
  ∀ s : State, step s = stepAt Config.ref s

/-- 42_dispatch R173: once the status is terminal, step and run change nothing, and run returns the terminal status. -/
def Obligations.TerminalStepsAreIdempotent : Prop :=
  ∀ (c : Config) (s : State), c.wellFormed = true → s.status.terminal = true →
    stepAt c s = .next s ∧ runAt c s = .next s ∧ runToEnd c s = .next (s, s.status) ∧ step s = .next s

/-- 10_state R27: no number of steps leads back to Running, and a terminal status stops all progress; a load does set Running. -/
def Obligations.OnlyLoadLeadsBackToRunning : Prop :=
  ∀ (c : Config) (s : State), c.wellFormed = true →
    (s.status.terminal = true → ∀ n, runFor c n s = s ∧ (runFor c n s).status ≠ .running) ∧
    (s.status.terminal = true → ∀ t, stepAt c s = .next t → t = s ∧ t.status ≠ .running) ∧
    (∀ bytes t, load c bytes s = .next t → t.status = .running)

/-- 10_state R25: between two loads `pc` never decreases and never exceeds `L`; a successful decode advances it by at least 1
and at most `L - pc`. Any `pc` will do: there is no alignment. -/
def Obligations.PcNeverDecreasesNorLeavesTheBuffer : Prop :=
  ∀ (c : Config) (s : State), c.wellFormed = true → s.pc ≤ s.buf.length →
    (∀ n, s.pc ≤ (runFor c n s).pc ∧ (runFor c n s).pc ≤ s.buf.length) ∧
    (s.pc ≤ (stepState c s).pc ∧ (stepState c s).pc ≤ s.buf.length) ∧
    ∀ ins next, decode c s.buf s.pc = .ok ins next →
      1 ≤ next - s.pc ∧ s.pc < next ∧ next - s.pc ≤ s.buf.length - s.pc ∧
      (s.status = .running → (stepState c s).pc = next)

/-- 10_state R22: only LOAD_IMMEDIATE writes a register, and only the one its argument names, checked against 32; no instruction reads
one, so the registers influence neither `pc` nor `status` nor what is written; the host reads them by its port. -/
def Obligations.OnlyLoadImmediateWritesAndNothingReadsARegister : Prop :=
  ∀ (c : Config) (s : State), c.wellFormed = true →
    (∀ r : Fin numRegs, (stepState c s).readReg r ≠ s.readReg r →
      s.status = .running ∧ ∃ a1 a2 next,
        decode c s.buf s.pc = .ok { op := .real c.ids.loadImmediate, args := [a1, a2] } next ∧
        a1.spec = .u8 ∧ a2.spec = .s16 ∧ (a1.byte 0).toNat = r.val) ∧
    (∀ y : Vector Word numRegs,
      let t := stepState c s
      let t' := stepState c { s with x := y }
      t'.status = t.status ∧ t'.pc = t.pc ∧ t'.buf = t.buf ∧
      ∀ r : Fin numRegs, t'.readReg r = t.readReg r ∨ (t.readReg r = s.readReg r ∧ t'.readReg r = y[r])) ∧
    (∀ a1 a2 next, s.status = .running →
      decode c s.buf s.pc = .ok { op := .real c.ids.loadImmediate, args := [a1, a2] } next →
      a1.spec = .u8 → a2.spec = .s16 → numRegs ≤ (a1.byte 0).toNat →
      (∃ k, (stepState c s).status = .failed (.registerIndexOutOfRange k)) ∧ (stepState c s).x = s.x) ∧
    ∀ r : Fin numRegs, hostReadReg s r = s.x[r]

/-- Two runs that differ only in their registers take the same course; a register ends equal in both, or as it began in each
(from 10_state section 2 by induction over the run). -/
def Obligations.RunCourseIsIndependentOfTheRegisters : Prop :=
  ∀ (c : Config) (s : State) (y : Vector Word numRegs) (n : Nat), c.wellFormed = true →
    let t := runFor c n s
    let t' := runFor c n { s with x := y }
    t'.status = t.status ∧ t'.pc = t.pc ∧ t'.buf = t.buf ∧
      ∀ r : Fin numRegs, t'.readReg r = t.readReg r ∨ (t.readReg r = s.readReg r ∧ t'.readReg r = y[r])

/-- Failures are precise (60_exceptions section 1; the two values of `pc` are 92_eei_decisions D6 and D7). -/
def Obligations.FailuresArePrecise : Prop :=
  ∀ (c : Config) (s : State) (r : Reason), c.wellFormed = true → s.status = .running → (stepState c s).status = .failed r →
    (stepState c s).x = s.x ∧ (stepState c s).buf = s.buf ∧
    (decode c s.buf s.pc = .err r → (stepState c s).pc = s.pc) ∧
    ∀ ins next, decode c s.buf s.pc = .ok ins next → (stepState c s).pc = next

/-- Why a step ends as it does: each terminal status has exactly its cause (60_exceptions sections 2 and 3, 42_dispatch section 2; the
payloads and the order of the LOAD_IMMEDIATE checks are 92_eei_decisions D10, D13, D18). HALT is the only normal end. -/
def Obligations.EachTerminalStatusHasItsCause : Prop :=
  ∀ (c : Config) (s : State), c.wellFormed = true → s.status = .running →
    ((stepState c s).status = .halted ↔
      ∃ args next, decode c s.buf s.pc = .ok { op := .real c.ids.halt, args := args } next) ∧
    ((stepState c s).status = .failed .endOfProgram ↔ decode c s.buf s.pc = .err .endOfProgram) ∧
    (∀ op argc need, (stepState c s).status = .failed (.truncatedInstruction op argc need) ↔
      decode c s.buf s.pc = .err (.truncatedInstruction op argc need)) ∧
    (∀ op, (stepState c s).status = .failed (.unsupportedOpcode op) ↔
      ∃ args next, decode c s.buf s.pc = .ok { op := op, args := args } next ∧
        op ≠ .real c.ids.halt ∧ op ≠ .real c.ids.noop ∧ op ≠ .real c.ids.move ∧ op ≠ .real c.ids.loadImmediate) ∧
    (∀ n, (stepState c s).status = .failed (.registerIndexOutOfRange n) ↔
      ∃ a1 a2 next, decode c s.buf s.pc = .ok { op := .real c.ids.loadImmediate, args := [a1, a2] } next ∧
        a1.spec = .u8 ∧ a2.spec = .s16 ∧ n = a1.byte 0 ∧ numRegs ≤ n.toNat) ∧
    ∀ op got, (stepState c s).status = .failed (.argumentShapeMismatch op got) ↔
      ∃ args next, decode c s.buf s.pc = .ok { op := op, args := args } next ∧ op = .real c.ids.loadImmediate ∧
        got = args.map Arg.spec ∧ got ≠ [.u8, .s16]

/-- 70_reset R243: LOAD_IMMEDIATE passes its shape check exactly when the byte before its opcode byte is EXT_SECOND; a prefix
applies to whatever opcode follows it, and to nothing after that: decoding depends on no byte before its start. -/
def Obligations.ImmediateNeedsItsPrefixDirectlyBefore : Prop :=
  ∀ c : Config, c.wellFormed = true →
    (∀ (s : State) (args : List Arg) (next : Nat), s.status = .running →
      decode c s.buf s.pc = .ok { op := .real c.ids.loadImmediate, args := args } next →
      ((∃ op got, (stepState c s).status = .failed (.argumentShapeMismatch op got)) ↔
        ¬ (s.buf.read s.pc = some (c.toByte (.real c.ids.extSecond)) ∧
            s.buf.read (s.pc + 1) = some (c.toByte (.real c.ids.loadImmediate))))) ∧
    (∀ (m : Memory) (pc next : Nat) (b2 : Byte) (ins : Decoded),
      m.read pc = some (c.toByte (.real c.ids.extSecond)) → m.read (pc + 1) = some b2 →
      decode c m pc = .ok ins next →
      ins.op = c.fromByte b2 ∧ ins.args.map Arg.spec = Shape.widen (c.shapeOf (c.fromByte b2)) .second) ∧
    ∀ (pre bs : List Byte) (k : Nat),
      decode c (Memory.ofBytes (pre ++ bs)) (pre.length + k)
        = (decode c (Memory.ofBytes bs) k).shift pre.length

/-- 60_exceptions R213: a decode attempted with no bytes left, at the end of the buffer or after a prefix that is its last byte
(41_decoder section 5), ends the run with EndOfProgram, a Failed status and not Halted. -/
def Obligations.RunningOffTheEndIsAFailure : Prop :=
  ∀ (c : Config) (s : State), c.wellFormed = true → s.status = .running →
    (s.pc = s.buf.length ∨
      ∃ b, s.buf.read s.pc = some b ∧ c.isExt (c.fromByte b) = true ∧ s.pc + 1 = s.buf.length) →
    (stepState c s).status = .failed .endOfProgram ∧ (stepState c s).status ≠ .halted ∧
      (runState c s).status = .failed .endOfProgram

/-- 60_exceptions R214: a truncated instruction carries its opcode and the bytes needed, is a different reason from
UnsupportedOpcode, and is never dispatched, even when its opcode has no handler. -/
def Obligations.TruncatedInstructionIsNeverDispatched : Prop :=
  ∀ (c : Config) (s : State) (op : Opcode) (argc need : Nat), c.wellFormed = true → s.status = .running →
    decode c s.buf s.pc = .err (.truncatedInstruction op argc need) →
    (stepState c s).status = .failed (.truncatedInstruction op argc need) ∧ (stepState c s).x = s.x ∧
      (∀ op', (stepState c s).status ≠ .failed (.unsupportedOpcode op')) ∧
      ∃ e : Ext, need = Shape.need (Shape.widen (c.shapeOf op) e) ∧ s.buf.length < s.pc + 2 + need

/-- 60_exceptions R215: an opcode that decoded but has no handler, the out-of-range marker included, ends the run with
UnsupportedOpcode, which no decode failure is; it is a normal, reportable outcome: the step completes. -/
def Obligations.UndispatchedOpcodeIsReported : Prop :=
  ∀ (c : Config) (s : State), c.wellFormed = true → s.status = .running →
    c.handlerOf .outOfRange = .unsupported ∧
    (∀ op args next, decode c s.buf s.pc = .ok { op := op, args := args } next → c.handlerOf op = .unsupported →
      ∃ t op', stepAt c s = .next t ∧ t.status = .failed (.unsupportedOpcode op')) ∧
    ∀ r op t, decode c s.buf s.pc = .err r → stepAt c s = .next t → t.status ≠ .failed (.unsupportedOpcode op)

/-! ### Runs -/

/-- Every run ends: after `L - pc + 1` steps the status is terminal, and more steps change nothing (42_dispatch section 1, derived
there). -/
def Obligations.EveryRunEnds : Prop :=
  ∀ (c : Config) (s : State), c.wellFormed = true →
    (runState c s).status.terminal = true ∧ ∀ n, s.buf.length - s.pc + 1 ≤ n → runFor c n s = runState c s

/-- A program with no HALT byte ahead always ends in a failure (42_dispatch section 1, derived there). -/
def Obligations.ProgramWithoutHaltFails : Prop :=
  ∀ (c : Config) (s : State), c.wellFormed = true → s.status = .running →
    (∀ a, s.pc ≤ a → s.buf.read a ≠ some (c.toByte (.real c.ids.halt))) →
    ∃ r, (runState c s).status = .failed r

/-- The empty program ends at once (42_dispatch section 3; the outcome is 92_eei_decisions D11). -/
def Obligations.EmptyProgramEndsAtOnce : Prop :=
  ∀ c : Config, c.wellFormed = true →
    (runState c (State.loaded c [])).status = .failed .endOfProgram ∧ (runState c (State.loaded c [])).pc = 0 ∧
    runState c (State.loaded c []) = stepState c (State.loaded c [])

/-- The pseudo-instruction `li` loads its register under every well-formed configuration, wherever it stands (30_encoding section 6;
92_eei_decisions D22), and changes nothing else but `pc`. -/
def Obligations.LiLoadsItsRegister : Prop :=
  ∀ (c : Config) (s : State) (pre post : List Byte) (n : Byte) (v : Int), c.wellFormed = true → s.status = .running →
    s.buf = Memory.ofBytes (pre ++ liBytes c n v ++ post) → s.pc = pre.length → -32768 ≤ v → v ≤ 32767 →
    (n.toNat < numRegs →
      stepState c s = { s with pc := pre.length + 5, x := s.x.setIfInBounds n.toNat (BitVec.ofInt 32 v) }) ∧
    (numRegs ≤ n.toNat →
      stepState c s = { s with pc := pre.length + 5, status := .failed (.registerIndexOutOfRange n) })

/-- The host's own runner on the machine of REF is `run`. (42_dispatch section 1; the bound is derived there.) -/
def Obligations.HostRunnerIsRun : Prop :=
  ∀ s : State, Host.Core.run Sys2Proof.core (s.buf.length - s.pc + 1) s = .next (runState Config.ref s)

/-! ### Invariant and status register -/

/-- Every step keeps the invariant: canonical buffer of admitted length, `pc` inside it, a legal status (10_state sections 3 and 4),
under every well-formed configuration and for the machine of REF. -/
def Obligations.StepKeepsTheInvariant : Prop :=
  (∀ (c : Config) (s t : State), c.wellFormed = true → s.Inv c → stepAt c s = .next t → t.Inv c) ∧
    ∀ s t : State, s.Inv Config.ref → step s = .next t → t.Inv Config.ref

/-- The invariant holds at reset. -/
def Obligations.InvariantHoldsAtReset : Prop := State.reset.Inv Config.ref

/-- The invariant holds after every admitted load (70_reset section 1). -/
def Obligations.InvariantHoldsAfterLoad : Prop :=
  ∀ (c : Config) (bytes : List Byte) (s t : State), load c bytes s = .next t → t.Inv c

/-- The bit fields and the status carry the same information (10_state section 4; the encoding is 92_eei_decisions D17): two legal
statuses with equal fields are equal; the values the table says are never written are not. -/
def Obligations.StatusFieldsCarryTheStatus : Prop :=
  ∀ c : Config, c.wellFormed = true →
    (∀ st1 st2 : Status, StatusLegal c st1 → StatusLegal c st2 → statusFields c st1 = statusFields c st2 → st1 = st2) ∧
    (∀ st : Status, (statusFields c st).state ≠ 3 ∧ (statusFields c st).reason ≠ 6 ∧ (statusFields c st).reason ≠ 7 ∧
      ((statusFields c st).state = 0 ↔ st = .running) ∧ ((statusFields c st).state = 1 ↔ st = .halted) ∧
      ((statusFields c st).reason = 0 ↔ ∀ r, st ≠ .failed r)) ∧
    (∀ op argc need, StatusLegal c (.failed (.truncatedInstruction op argc need)) →
      (statusFields c (.failed (.truncatedInstruction op argc need))).argc.toNat = argc ∧
      (statusFields c (.failed (.truncatedInstruction op argc need))).bytesNeeded.toNat = need) ∧
    statusFields c .running = ⟨0, 0, 0, 0, 0, 0, []⟩ ∧ statusFields c .halted = ⟨1, 0, 0, 0, 0, 0, []⟩ ∧
    statusFields c (.failed .endOfProgram) = ⟨2, 1, 0, 0, 0, 0, []⟩ ∧
    (∀ op argc need, ∃ ac bn,
      statusFields c (.failed (.truncatedInstruction op argc need)) = ⟨2, 2, c.toByte op, ac, bn, 0, []⟩) ∧
    (∀ op, statusFields c (.failed (.unsupportedOpcode op)) = ⟨2, 3, c.toByte op, 0, 0, 0, []⟩) ∧
    (∀ n, statusFields c (.failed (.registerIndexOutOfRange n)) = ⟨2, 4, 0, 0, 0, n, []⟩) ∧
    ∀ op got, statusFields c (.failed (.argumentShapeMismatch op got)) = ⟨2, 5, c.toByte op, 0, 0, 0, got⟩

/-- The trace port emits one event exactly for a step that starts in Running, and the event tells what the step does (42_dispatch
section 3; 92_eei_decisions D21). -/
def Obligations.TraceTellsWhatTheStepDoes : Prop :=
  ∀ (c : Config) (s : State), c.wellFormed = true →
    ((traceEvent c s).isSome = true ↔ s.status = .running) ∧
    ∀ ev, traceEvent c s = some ev → ev.pcBefore = s.pc ∧
      (∀ ins pcAfter st, ev.outcome = .decoded ins pcAfter st →
        decode c s.buf s.pc = .ok ins pcAfter ∧ (stepState c s).pc = pcAfter ∧ (stepState c s).status = st) ∧
      ∀ r, ev.outcome = .decodeFailed r → decode c s.buf s.pc = .err r ∧ (stepState c s).status = .failed r
end

