-- ==== Sys2Proof/Laws/Memory.lean ====
section
/-! SUPPORT. Laws of the program buffer: reading what a load stored, the canonical form, and slices. -/

namespace Sys2Proof.Machine

theorem Memory.lookup_cellsOf_of_lt (bs : List Byte) (a k : Nat) (h : k < a) :
    Memory.lookup (Memory.cellsOf a bs) k = Memory.unlisted := by
  induction bs generalizing a with
  | nil => rfl
  | cons b rest ih =>
    unfold Memory.cellsOf
    split
    · exact ih (a + 1) (by omega)
    · rw [Memory.lookup, if_neg (by omega)]
      exact ih (a + 1) (by omega)

theorem Memory.lookup_cellsOf (bs : List Byte) (a k : Nat) :
    Memory.lookup (Memory.cellsOf a bs) (a + k) = bs.getD k Memory.unlisted := by
  induction bs generalizing a k with
  | nil => simp [Memory.cellsOf, Memory.lookup]
  | cons b rest ih =>
    cases k with
    | zero =>
      unfold Memory.cellsOf
      split
      · next hb => simp [Memory.lookup_cellsOf_of_lt rest (a + 1) a (by omega), hb]
      · simp [Memory.lookup]
    | succ k =>
      have hk : a + (k + 1) = a + 1 + k := by omega
      unfold Memory.cellsOf
      split
      · rw [hk, ih]; simp
      · rw [Memory.lookup, if_neg (by omega), hk, ih]; simp

@[simp] theorem Memory.length_ofBytes (bs : List Byte) : (Memory.ofBytes bs).length = bs.length := rfl

/-- A load's buffer reads as the loaded bytes, and as nothing past them. -/
@[simp] theorem Memory.read_ofBytes (bs : List Byte) (a : Nat) : (Memory.ofBytes bs).read a = bs[a]? := by
  unfold Memory.read
  have h := Memory.lookup_cellsOf bs 0 a
  rw [Nat.zero_add] at h
  split
  · next hlt =>
    simp only [Memory.length_ofBytes] at hlt
    simp [Memory.ofBytes, h, List.getD, hlt]
  · next hge =>
    simp only [Memory.length_ofBytes] at hge
    simp; omega

theorem Memory.read_eq_none {m : Memory} {a : Nat} : m.read a = none ↔ m.length ≤ a := by
  unfold Memory.read; split <;> simp <;> omega

theorem Memory.read_isSome {m : Memory} {a : Nat} : (m.read a).isSome = true ↔ a < m.length := by
  unfold Memory.read; split <;> simp <;> omega

theorem Memory.lt_of_read {m : Memory} {a : Nat} {b : Byte} (h : m.read a = some b) : a < m.length := by
  rw [← Memory.read_isSome, h]; rfl

theorem Memory.exists_read {m : Memory} {a : Nat} (h : a < m.length) : ∃ b, m.read a = some b :=
  Option.isSome_iff_exists.mp (Memory.read_isSome.mpr h)

/-! ### Canonical form -/

theorem Memory.cellsOk_cellsOf (bs : List Byte) (lo a hi : Nat) (h : lo ≤ a) (hhi : a + bs.length ≤ hi) :
    Memory.cellsOk lo hi (Memory.cellsOf a bs) = true := by
  induction bs generalizing lo a with
  | nil => rfl
  | cons b rest ih =>
    simp only [List.length_cons] at hhi
    unfold Memory.cellsOf
    split
    · exact ih lo (a + 1) (by omega) (by omega)
    · next hb =>
      simp only [Memory.cellsOk, Bool.and_eq_true, decide_eq_true_eq]
      exact ⟨⟨⟨h, by omega⟩, hb⟩, ih (a + 1) (a + 1) (by omega) (by omega)⟩

/-- Every operation that makes a buffer makes a canonical one. -/
@[simp] theorem Memory.wf_ofBytes (bs : List Byte) : (Memory.ofBytes bs).wf = true :=
  Memory.cellsOk_cellsOf bs 0 0 bs.length (by omega) (by omega)

@[simp] theorem Memory.wf_empty : Memory.empty.wf = true := rfl

@[simp] theorem Memory.wf_placeAt (m : Memory) (a : Nat) (bs : List Byte) : (m.placeAt a bs).wf = true :=
  Memory.wf_ofBytes _

theorem Memory.ofBytes_nil : Memory.ofBytes [] = Memory.empty := rfl

/-! ### Slices -/

@[simp] theorem Memory.slice_zero (m : Memory) (a : Nat) : m.slice a 0 = [] := rfl

theorem Memory.slice_succ {m : Memory} {a : Nat} {b : Byte} (n : Nat) (h : m.read a = some b) :
    m.slice a (n + 1) = b :: m.slice (a + 1) n := by
  simp [Memory.slice, h]

theorem Memory.length_slice {m : Memory} (a n : Nat) (h : a + n ≤ m.length) : (m.slice a n).length = n := by
  induction n generalizing a with
  | zero => rfl
  | succ n ih =>
    obtain ⟨b, hb⟩ := Memory.exists_read (m := m) (a := a) (by omega)
    rw [Memory.slice_succ n hb, List.length_cons, ih (a + 1) (by omega)]

theorem Memory.slice_congr {m1 m2 : Memory} (a1 a2 n : Nat)
    (h : ∀ k, k < n → m1.read (a1 + k) = m2.read (a2 + k)) : m1.slice a1 n = m2.slice a2 n := by
  induction n generalizing a1 a2 with
  | zero => rfl
  | succ n ih =>
    have h0 := h 0 (by omega)
    have hs := ih (a1 + 1) (a2 + 1) fun k hk => by
      have := h (k + 1) (by omega)
      simpa [Nat.add_assoc, Nat.add_comm 1 k] using this
    simp only [Nat.add_zero] at h0
    simp only [Memory.slice, h0, hs]

theorem Memory.slice_add {m : Memory} (a n k : Nat) (h : a + n ≤ m.length) :
    m.slice a (n + k) = m.slice a n ++ m.slice (a + n) k := by
  induction n generalizing a with
  | zero => simp
  | succ n ih =>
    obtain ⟨b, hb⟩ := Memory.exists_read (m := m) (a := a) (by omega)
    have hn : n + 1 + k = (n + k) + 1 := by omega
    have ha : a + 1 + n = a + (n + 1) := by omega
    rw [hn, Memory.slice_succ _ hb, Memory.slice_succ _ hb, ih (a + 1) (by omega), ha]; rfl

theorem Memory.slice_ofBytes (bs : List Byte) (a n : Nat) :
    (Memory.ofBytes bs).slice a n = (bs.drop a).take n := by
  induction n generalizing a with
  | zero => simp
  | succ n ih =>
    simp only [Memory.slice, Memory.read_ofBytes]
    cases h : bs[a]? with
    | none =>
      have := List.getElem?_eq_none_iff.mp h
      simp [List.drop_eq_nil_of_le this]
    | some b =>
      obtain ⟨hlt, rfl⟩ := List.getElem?_eq_some_iff.mp h
      rw [List.drop_eq_getElem_cons hlt, List.take_succ_cons, ih]

/-- Reading inside a byte run that stands somewhere in a loaded buffer. -/
theorem Memory.read_inside (pre mid post : List Byte) (k : Nat) (h : k < mid.length) :
    (Memory.ofBytes (pre ++ mid ++ post)).read (pre.length + k) = mid[k]? := by
  rw [Memory.read_ofBytes, List.append_assoc, List.getElem?_append_right (by omega), Nat.add_sub_cancel_left,
    List.getElem?_append_left h]

/-- A slice inside such a run. -/
theorem Memory.slice_inside (pre mid post : List Byte) (k n : Nat) (h : k + n ≤ mid.length) :
    (Memory.ofBytes (pre ++ mid ++ post)).slice (pre.length + k) n = (mid.drop k).take n := by
  rw [Memory.slice_ofBytes, List.append_assoc, ← List.drop_drop, List.drop_left,
    List.drop_append_of_le_length (by omega), List.take_append_of_le_length (by simp; omega)]

/-- Reading the tail of a loaded buffer. -/
theorem Memory.read_tail (pre bs : List Byte) (k : Nat) :
    (Memory.ofBytes (pre ++ bs)).read (pre.length + k) = (Memory.ofBytes bs).read k := by
  simp [List.getElem?_append_right]

/-- Equal bytes give equal cells: below its first key a canonical cell list reads as unlisted. -/
theorem Memory.lookup_of_lt {hi : Nat} (cs : List Host.Cell) (lo a : Nat) (hk : Memory.cellsOk lo hi cs = true)
    (ha : a < lo) : Memory.lookup cs a = Memory.unlisted := by
  induction cs generalizing lo with
  | nil => rfl
  | cons p rest ih =>
    obtain ⟨k, b⟩ := p
    simp only [Memory.cellsOk, Bool.and_eq_true, decide_eq_true_eq] at hk
    rw [Memory.lookup, if_neg (by omega)]
    exact ih _ hk.2 (by omega)

/-- The bytes of a buffer are the bytes it was loaded with. -/
@[simp] theorem Memory.toBytes_ofBytes (bs : List Byte) : (Memory.ofBytes bs).toBytes = bs := by
  unfold Memory.toBytes; rw [Memory.slice_ofBytes]; simp

theorem Memory.length_toBytes (m : Memory) : m.toBytes.length = m.length :=
  Memory.length_slice 0 m.length (by omega)

/-- Where bytes were placed, they are read back. -/
theorem Memory.read_placeAt (m : Memory) (a : Nat) (bs : List Byte) (k : Nat) (h : k < bs.length) :
    (m.placeAt a bs).read (a + k) = bs[k]? := by
  unfold Memory.placeAt
  rw [Memory.read_ofBytes, List.append_assoc,
    List.getElem?_append_right (by simp [Memory.length_toBytes]; omega),
    List.getElem?_append_left (by simp [Memory.length_toBytes]; omega)]
  congr 1
  simp [Memory.length_toBytes]; omega

theorem Memory.le_length_placeAt (m : Memory) (a : Nat) (bs : List Byte) :
    a + bs.length ≤ (m.placeAt a bs).length := by
  unfold Memory.placeAt
  simp [Memory.length_toBytes]; omega

end Sys2Proof.Machine
end

