-- ==== Sys2Proof/Laws/OpcodeTable.lean ====
section
/-! SUPPORT. Laws of the opcode table: what a well-formed configuration gives, `fromByte` and `toByte`, shapes and widening. -/

namespace Sys2Proof

/-! ### What well-formedness gives -/

theorem Config.K_bounds {c : Config} (h : c.wellFormed = true) : 7 ≤ c.K ∧ c.K ≤ 254 := by
  simp only [Config.wellFormed, Config.wfK, Bool.and_eq_true, decide_eq_true_eq] at h
  exact h.1.1.1.1.1.1.1

theorem Config.ids_lt {c : Config} (h : c.wellFormed = true) :
    c.ids.halt < c.K ∧ c.ids.noop < c.K ∧ c.ids.move < c.K ∧ c.ids.loadImmediate < c.K ∧
      c.ids.extFirst < c.K ∧ c.ids.extSecond < c.K ∧ c.ids.extBoth < c.K := by
  simp only [Config.wellFormed, Bool.and_eq_true] at h
  simpa [Config.wfIdsRange, OpcodeIds.toList] using h.1.1.1.1.1.2

/-- The named ids are pairwise distinct, as far as the proofs need it: both ways round, so that simp can use them. -/
theorem Config.ids_distinct {c : Config} (h : c.wellFormed = true) : c.ids.toList.Nodup := by
  simp only [Config.wellFormed, Bool.and_eq_true] at h
  simpa [Config.wfIdsDistinct] using h.1.1.1.1.1.1.2

theorem Config.pinned {c : Config} (h : c.wellFormed = true) :
    c.shapeOf (.real c.ids.halt) = [] ∧ c.shapeOf (.real c.ids.noop) = [] ∧
      c.shapeOf (.real c.ids.loadImmediate) = [.u8, .s8] ∧ c.shapeOf (.real c.ids.extFirst) = [] ∧
      c.shapeOf (.real c.ids.extSecond) = [] ∧ c.shapeOf (.real c.ids.extBoth) = [] := by
  simp only [Config.wellFormed, Bool.and_eq_true] at h
  have := h.1.2
  simp only [Config.wfPinned, Bool.and_eq_true, decide_eq_true_eq] at this
  exact ⟨this.1.1.1.1.1, this.1.1.1.1.2, this.1.1.1.2, this.1.1.2, this.1.2, this.2⟩

theorem Config.consistent_of_mem {c : Config} {d : ShapeDesc} (h : c.wellFormed = true) (hd : d ∈ c.shapeTable) :
    d.consistent = true := by
  simp only [Config.wellFormed, Bool.and_eq_true, Config.wfConsistent, List.all_eq_true] at h
  exact h.1.1.1.2 d hd

/-- Every base shape of a well-formed configuration is legal (40_opcode_table R105). -/
theorem Config.shapeOf_legal {c : Config} (h : c.wellFormed = true) (op : Opcode) :
    Shape.legalBase (c.shapeOf op) = true := by
  simp only [Config.wellFormed, Bool.and_eq_true, Config.wfLegal, List.all_eq_true] at h
  cases op with
  | real i =>
    unfold Config.shapeOf
    dsimp only
    split
    · next d hd => exact h.1.1.2 d (List.mem_of_getElem? hd)
    · rfl
  | boundary => rfl
  | outOfRange => rfl

theorem Config.regReset_range {c : Config} (h : c.wellFormed = true) (i : Fin numRegs) :
    -2 ^ 31 ≤ c.regReset.getD i.val 0 ∧ c.regReset.getD i.val 0 ≤ 2 ^ 31 - 1 := by
  simp only [Config.wellFormed, Bool.and_eq_true, Config.wfRegReset, List.all_eq_true, decide_eq_true_eq] at h
  have hi : i.val < c.regReset.length := by rw [h.2.1]; exact i.isLt
  have := h.2.2 c.regReset[i.val] (List.getElem_mem hi)
  simpa [List.getD, hi] using this

/-! ### fromByte, toByte -/

theorem Config.fromByte_of_lt {c : Config} {b : Byte} (h : b.toNat < c.K) : c.fromByte b = .real b.toNat := by
  simp [Config.fromByte, h]

theorem Config.fromByte_of_ge {c : Config} {b : Byte} (h : c.K ≤ b.toNat) : c.fromByte b = .outOfRange := by
  simp [Config.fromByte, Nat.not_lt.mpr h]

theorem Config.fetchable_fromByte (c : Config) (b : Byte) : c.fetchable (c.fromByte b) = true := by
  unfold Config.fromByte; split <;> simp_all [Config.fetchable]

theorem Config.fromByte_toByte_real {c : Config} {i : Nat} (h : c.wellFormed = true) (hi : i < c.K) :
    c.fromByte (c.toByte (.real i)) = .real i := by
  have hK := Config.K_bounds h
  have : (BitVec.ofNat 8 i).toNat = i := by rw [BitVec.toNat_ofNat]; exact Nat.mod_eq_of_lt (by omega)
  rw [Config.toByte, Config.fromByte_of_lt (by omega), this]

/-- A byte decodes to a real opcode exactly when it is that opcode's byte. -/
theorem Config.fromByte_eq_real {c : Config} {b : Byte} {i : Nat} (h : c.wellFormed = true) (hi : i < c.K) :
    c.fromByte b = .real i ↔ b = c.toByte (.real i) := by
  constructor
  · intro hb
    unfold Config.fromByte at hb
    split at hb
    · injection hb with hb
      rw [Config.toByte, ← hb]; simp
    · cases hb
  · rintro rfl; exact Config.fromByte_toByte_real h hi

/-! ### Prefixes and handlers -/

theorem Config.extOf_of_not_isExt {c : Config} {op : Opcode} (h : c.isExt op = false) : c.extOf op = .none := by
  simpa [Config.isExt] using h

theorem Config.extOf_ne_none {c : Config} {op : Opcode} (h : c.isExt op = true) : c.extOf op ≠ .none := by
  simpa [Config.isExt] using h

@[simp] theorem Config.isExt_outOfRange (c : Config) : c.isExt .outOfRange = false := by
  simp [Config.isExt, Config.extOf]

/-- The latch of the three prefixes (41_decoder R131). -/
theorem Config.extOf_named {c : Config} (h : c.wellFormed = true) :
    c.extOf (.real c.ids.extFirst) = .first ∧ c.extOf (.real c.ids.extSecond) = .second ∧
      c.extOf (.real c.ids.extBoth) = .both := by
  have := Config.ids_distinct h
  simp [OpcodeIds.toList] at this
  refine ⟨?_, ?_, ?_⟩ <;> (unfold Config.extOf; repeat' split) <;> simp_all

theorem Config.extOf_eq {c : Config} (op : Opcode) :
    (c.extOf op = .none) ∨ (c.extOf op = .first ∧ op = .real c.ids.extFirst) ∨
      (c.extOf op = .second ∧ op = .real c.ids.extSecond) ∨ (c.extOf op = .both ∧ op = .real c.ids.extBoth) := by
  unfold Config.extOf; split <;> [skip; split] <;> [skip; skip; split] <;> simp_all

/-- A prefix has no handler (42_dispatch R178). -/
theorem Config.handlerOf_ext {c : Config} (h : c.wellFormed = true) :
    c.handlerOf (.real c.ids.extFirst) = .unsupported ∧ c.handlerOf (.real c.ids.extSecond) = .unsupported ∧
      c.handlerOf (.real c.ids.extBoth) = .unsupported := by
  have hd := Config.ids_distinct h
  simp [OpcodeIds.toList] at hd
  refine ⟨?_, ?_, ?_⟩ <;> (unfold Config.handlerOf; repeat' split) <;> simp_all

/-- A prefix has no arguments and no handler (40_opcode_table R107, 42_dispatch R178). -/
theorem Config.isExt_shape_handler {c : Config} {op : Opcode} (h : c.wellFormed = true) (hx : c.isExt op = true) :
    c.shapeOf op = [] ∧ c.handlerOf op = .unsupported := by
  have hh := Config.handlerOf_ext h
  have hp := Config.pinned h
  rcases Config.extOf_eq (c := c) op with hn | ⟨-, rfl⟩ | ⟨-, rfl⟩ | ⟨-, rfl⟩
  · exact absurd hn (Config.extOf_ne_none hx)
  · exact ⟨hp.2.2.2.1, hh.1⟩
  · exact ⟨hp.2.2.2.2.1, hh.2.1⟩
  · exact ⟨hp.2.2.2.2.2, hh.2.2⟩

/-- The handler of each named opcode, and of no other (42_dispatch R170). -/
theorem Config.handlerOf_named {c : Config} (h : c.wellFormed = true) :
    c.handlerOf (.real c.ids.halt) = .halt ∧ c.handlerOf (.real c.ids.noop) = .noop ∧
      c.handlerOf (.real c.ids.move) = .move ∧ c.handlerOf (.real c.ids.loadImmediate) = .loadImmediate ∧
      c.isExt (.real c.ids.loadImmediate) = false := by
  have hd := Config.ids_distinct h
  simp [OpcodeIds.toList] at hd
  refine ⟨?_, ?_, ?_, ?_, ?_⟩ <;> simp only [Config.handlerOf, Config.isExt, Config.extOf]
  all_goals repeat' split
  all_goals simp_all

theorem Config.handlerOf_eq {c : Config} (op : Opcode) :
    (c.handlerOf op = .halt ∧ op = .real c.ids.halt) ∨ (c.handlerOf op = .noop ∧ op = .real c.ids.noop) ∨
      (c.handlerOf op = .move ∧ op = .real c.ids.move) ∨
      (c.handlerOf op = .loadImmediate ∧ op = .real c.ids.loadImmediate) ∨
      (c.handlerOf op = .unsupported ∧ op ≠ .real c.ids.halt ∧ op ≠ .real c.ids.noop ∧ op ≠ .real c.ids.move ∧
        op ≠ .real c.ids.loadImmediate) := by
  unfold Config.handlerOf
  repeat' split
  all_goals simp_all

@[simp] theorem Config.handlerOf_outOfRange (c : Config) : c.handlerOf .outOfRange = .unsupported := rfl

/-! ### Shapes -/

@[simp] theorem Shape.widen_nil (e : Ext) : Shape.widen [] e = [] := by cases e <;> rfl

@[simp] theorem ArgSpec.widen_false (a : ArgSpec) : a.widen false = a := by simp [ArgSpec.widen]

@[simp] theorem ArgSpec.widen_sign (hit : Bool) (a : ArgSpec) : (a.widen hit).s = a.s := by
  unfold ArgSpec.widen; split <;> rfl

@[simp] theorem Shape.length_widen (sh : Shape) (e : Ext) : (Shape.widen sh e).length = sh.length := by
  match sh with
  | [] => simp
  | [_] => rfl
  | _ :: _ :: _ => rfl

@[simp] theorem Shape.widen_none (sh : Shape) : Shape.widen sh .none = sh := by
  match sh with
  | [] => rfl
  | [a] => simp [Shape.widen, Ext.hitsFirst]
  | a :: b :: rest => simp [Shape.widen, Ext.hitsFirst, Ext.hitsSecond]

@[simp] theorem Shape.need_nil : Shape.need [] = 0 := rfl

@[simp] theorem Shape.need_cons (a : ArgSpec) (rest : Shape) : Shape.need (a :: rest) = a.w.bytes + Shape.need rest := rfl

theorem Width.bytes_le (w : Width) : 1 ≤ w.bytes ∧ w.bytes ≤ 3 := by cases w <;> decide

/-- The resolved shapes of LOAD_IMMEDIATE (42_dispatch R177). -/
theorem Shape.widen_u8_s8 (e : Ext) :
    Shape.widen [.u8, .s8] e = match e with
      | .none => [.u8, .s8]
      | .first => [.u16, .s8]
      | .second => [.u8, .s16]
      | .both => [.u16, .s16] := by
  cases e <;> rfl

theorem ShapeDesc.length_toShape_le (d : ShapeDesc) : d.toShape.length ≤ 3 := by
  have he : ∀ w sg, (ShapeDesc.entry w sg).length ≤ 1 := by
    intro w sg; cases w <;> simp [ShapeDesc.entry]
  have h1 := he d.w1 d.s1
  have h2 := he d.w2 d.s2
  have h3 := he d.w3 d.s3
  unfold ShapeDesc.toShape
  split <;> simp <;> omega

theorem Config.length_shapeOf_le (c : Config) (op : Opcode) : (c.shapeOf op).length ≤ 3 := by
  cases op with
  | real i =>
    unfold Config.shapeOf
    dsimp only
    split
    · exact ShapeDesc.length_toShape_le _
    · simp
  | boundary => simp [Config.shapeOf]
  | outOfRange => simp [Config.shapeOf]

end Sys2Proof
end

