-- ==== Sys2Proof/Laws/Decode.lean ====
section
/-! SUPPORT. Laws of the decoder: what the arguments it takes are, when its two halves answer what, and when it succeeds and fails. -/

namespace Sys2Proof

open Machine (Memory)

/-! ### Arguments -/

@[simp] theorem takeArgs_spec (m : Memory) (a : Nat) (sh : Shape) : (takeArgs m a sh).map Arg.spec = sh := by
  induction sh generalizing a with
  | nil => rfl
  | cons sp rest ih => simp [takeArgs, ih]

theorem takeArgs_allSized (m : Memory) (a : Nat) (sh : Shape) (h : a + Shape.need sh ≤ m.length) :
    Arg.allSized (takeArgs m a sh) = true := by
  induction sh generalizing a with
  | nil => rfl
  | cons sp rest ih =>
    simp only [Shape.need_cons] at h
    simp only [takeArgs, Arg.allSized, Bool.and_eq_true, decide_eq_true_eq]
    exact ⟨Memory.length_slice a _ (by omega), ih _ (by omega)⟩

/-- The bytes of the taken arguments are the buffer's, in stream order. -/
theorem takeArgs_allBytes (m : Memory) (a : Nat) (sh : Shape) (h : a + Shape.need sh ≤ m.length) :
    Arg.allBytes (takeArgs m a sh) = m.slice a (Shape.need sh) := by
  induction sh generalizing a with
  | nil => rfl
  | cons sp rest ih =>
    simp only [Shape.need_cons] at h ⊢
    rw [takeArgs, Arg.allBytes, Memory.slice_add a _ _ (by omega), ih _ (by omega)]

theorem takeArgs_congr {m1 m2 : Memory} (a1 a2 : Nat) (sh : Shape)
    (h : ∀ k, k < Shape.need sh → m1.read (a1 + k) = m2.read (a2 + k)) : takeArgs m1 a1 sh = takeArgs m2 a2 sh := by
  induction sh generalizing a1 a2 with
  | nil => rfl
  | cons sp rest ih =>
    simp only [Shape.need_cons] at h
    have hs := Memory.slice_congr a1 a2 sp.w.bytes fun k hk => h k (by omega)
    have hr := ih (a1 + sp.w.bytes) (a2 + sp.w.bytes) fun k hk => by
      have := h (sp.w.bytes + k) (by omega)
      simpa [Nat.add_assoc] using this
    simp only [takeArgs, hs, hr]

/-- Arguments of the right sizes are determined by their specs and their bytes: taking them where their bytes stand gives
them back. -/
theorem takeArgs_of_slice (m : Memory) (a : Nat) (args : List Arg) (hs : Arg.allSized args = true)
    (hb : m.slice a (Shape.need (args.map Arg.spec)) = Arg.allBytes args)
    (hl : a + Shape.need (args.map Arg.spec) ≤ m.length) : takeArgs m a (args.map Arg.spec) = args := by
  induction args generalizing a with
  | nil => rfl
  | cons x rest ih =>
    simp only [Arg.allSized, Bool.and_eq_true, decide_eq_true_eq] at hs
    simp only [List.map_cons, Shape.need_cons, Arg.allBytes] at hb hl ⊢
    rw [Memory.slice_add a _ _ (by omega)] at hb
    have hx := List.append_inj hb (by rw [Memory.length_slice a _ (by omega), hs.1])
    rw [takeArgs, hx.1, ih _ hs.2 hx.2 (by omega)]

/-! ### Head -/

/-- When steps 1 and 2 find an opcode. -/
theorem decodeHead_eq_some {c : Config} {m : Memory} {pc : Nat} {e : Ext} {op : Opcode} {a : Nat} :
    decodeHead c m pc = some (e, op, a) ↔
      (∃ b, m.read pc = some b ∧ c.isExt (c.fromByte b) = false ∧ e = .none ∧ op = c.fromByte b ∧ a = pc + 1) ∨
      (∃ b b2, m.read pc = some b ∧ c.isExt (c.fromByte b) = true ∧ e = c.extOf (c.fromByte b) ∧
        m.read (pc + 1) = some b2 ∧ op = c.fromByte b2 ∧ a = pc + 2) := by
  unfold decodeHead
  constructor
  · intro h
    split at h
    · cases h
    · next b hb =>
      split at h
      · next hx =>
        split at h
        · cases h
        · next b2 hb2 =>
          simp only [Option.some.injEq, Prod.mk.injEq] at h
          exact .inr ⟨b, b2, hb, hx, h.1.symm, hb2, h.2.1.symm, h.2.2.symm⟩
      · next hx =>
        simp only [Option.some.injEq, Prod.mk.injEq] at h
        exact .inl ⟨b, hb, by simpa using hx, h.1.symm, h.2.1.symm, h.2.2.symm⟩
  · rintro (⟨b, hb, hx, rfl, rfl, rfl⟩ | ⟨b, b2, hb, hx, rfl, hb2, rfl, rfl⟩)
    · simp [hb, hx]
    · simp [hb, hx, hb2]

/-- When they do not: at the end of the buffer, or on a prefix that is its last byte. -/
theorem decodeHead_eq_none {c : Config} {m : Memory} {pc : Nat} :
    decodeHead c m pc = none ↔
      m.length ≤ pc ∨ ∃ b, m.read pc = some b ∧ c.isExt (c.fromByte b) = true ∧ m.length ≤ pc + 1 := by
  unfold decodeHead
  cases hb : m.read pc with
  | none => simp [Memory.read_eq_none.mp hb]
  | some b =>
    have hlt := Memory.lt_of_read hb
    cases hx : c.isExt (c.fromByte b) with
    | false => simp [hx]; omega
    | true =>
      cases hb2 : m.read (pc + 1) with
      | none => simp [hx, Memory.read_eq_none.mp hb2]
      | some b2 => have := Memory.lt_of_read hb2; simp [hx]; omega

/-- The head on a prefix and the opcode byte after it. -/
theorem decodeHead_prefixed {c : Config} {m : Memory} {pc : Nat} {b1 b2 : Byte} (h : m.read pc = some b1)
    (hx : c.isExt (c.fromByte b1) = true) (h2 : m.read (pc + 1) = some b2) :
    decodeHead c m pc = some (c.extOf (c.fromByte b1), c.fromByte b2, pc + 2) :=
  decodeHead_eq_some.mpr (.inr ⟨b1, b2, h, hx, rfl, h2, rfl, rfl⟩)

/-- The head on an opcode byte that is no prefix. -/
theorem decodeHead_plain {c : Config} {m : Memory} {pc : Nat} {b : Byte} (h : m.read pc = some b)
    (hx : c.isExt (c.fromByte b) = false) : decodeHead c m pc = some (.none, c.fromByte b, pc + 1) :=
  decodeHead_eq_some.mpr (.inl ⟨b, h, hx, rfl, rfl, rfl⟩)

/-- The cursor after the opcode byte, and the opcode. -/
theorem decodeHead_bounds {c : Config} {m : Memory} {pc : Nat} {e : Ext} {op : Opcode} {a : Nat}
    (h : decodeHead c m pc = some (e, op, a)) :
    pc < a ∧ a ≤ pc + 2 ∧ a ≤ m.length ∧ c.fetchable op = true ∧ (a = pc + if e = .none then 1 else 2) := by
  rcases decodeHead_eq_some.mp h with ⟨b, hb, hx, rfl, rfl, rfl⟩ | ⟨b, b2, hb, hx, rfl, hb2, rfl, rfl⟩
  · have := Memory.lt_of_read hb
    exact ⟨by omega, by omega, by omega, Config.fetchable_fromByte c b, by simp⟩
  · have := Memory.lt_of_read hb2
    exact ⟨by omega, by omega, by omega, Config.fetchable_fromByte c b2, by simp [Config.extOf_ne_none hx]⟩

/-! ### Whole decode -/

/-- When a decode succeeds, and with what. -/
theorem decodeWithExt_eq_ok {c : Config} {m : Memory} {pc next : Nat} {e : Ext} {ins : Decoded} :
    decodeWithExt c m pc = .ok (e, ins) next ↔
      ∃ op a, decodeHead c m pc = some (e, op, a) ∧
        a + Shape.need (Shape.widen (c.shapeOf op) e) ≤ m.length ∧
        next = a + Shape.need (Shape.widen (c.shapeOf op) e) ∧
        ins = { op := op, args := takeArgs m a (Shape.widen (c.shapeOf op) e) } := by
  unfold decodeWithExt
  constructor
  · intro h
    split at h
    · cases h
    · next e' op a hh =>
      unfold decodeBody at h
      dsimp only at h
      split at h
      · cases h
      · simp only [DecodeResult.ok.injEq, Prod.mk.injEq] at h
        obtain ⟨⟨rfl, rfl⟩, rfl⟩ := h
        exact ⟨op, a, hh, by omega, rfl, rfl⟩
  · rintro ⟨op, a, hh, hl, rfl, rfl⟩
    simp [hh, decodeBody, Nat.not_lt.mpr hl]

/-- When a decode fails, and why. -/
theorem decodeWithExt_eq_err {c : Config} {m : Memory} {pc : Nat} {r : Reason} :
    decodeWithExt c m pc = .err r ↔
      (decodeHead c m pc = none ∧ r = .endOfProgram) ∨
      ∃ e op a, decodeHead c m pc = some (e, op, a) ∧
        m.length < a + Shape.need (Shape.widen (c.shapeOf op) e) ∧
        r = .truncatedInstruction op (Shape.widen (c.shapeOf op) e).length
          (Shape.need (Shape.widen (c.shapeOf op) e)) := by
  unfold decodeWithExt
  constructor
  · intro h
    split at h
    · next hh => exact .inl ⟨hh, by injection h with h; exact h.symm⟩
    · next e op a hh =>
      unfold decodeBody at h
      dsimp only at h
      split at h
      · next hl => injection h with h; exact .inr ⟨e, op, a, hh, hl, h.symm⟩
      · cases h
  · rintro (⟨hh, rfl⟩ | ⟨e, op, a, hh, hl, rfl⟩)
    · simp [hh]
    · simp only [hh, decodeBody, hl, if_true]

theorem DecodeResult.map_eq_ok {α β : Type} {f : α → β} {d : DecodeResult α} {w : β} {n : Nat} :
    d.map f = .ok w n ↔ ∃ v, d = .ok v n ∧ f v = w := by
  cases d with
  | ok v k =>
    simp only [DecodeResult.map, DecodeResult.ok.injEq]
    constructor
    · rintro ⟨h1, h2⟩; exact ⟨v, ⟨rfl, h2⟩, h1⟩
    · rintro ⟨_, ⟨rfl, h2⟩, h1⟩; exact ⟨h1, h2⟩
  | err r => simp [DecodeResult.map]

theorem DecodeResult.map_eq_err {α β : Type} {f : α → β} {d : DecodeResult α} {r : Reason} :
    d.map f = .err r ↔ d = .err r := by
  cases d <;> simp [DecodeResult.map]

/-- The spec's decode succeeds exactly so. -/
theorem decode_eq_ok {c : Config} {m : Memory} {pc next : Nat} {ins : Decoded} :
    decode c m pc = .ok ins next ↔
      ∃ e op a, decodeHead c m pc = some (e, op, a) ∧
        a + Shape.need (Shape.widen (c.shapeOf op) e) ≤ m.length ∧
        next = a + Shape.need (Shape.widen (c.shapeOf op) e) ∧
        ins = { op := op, args := takeArgs m a (Shape.widen (c.shapeOf op) e) } := by
  unfold decode
  rw [DecodeResult.map_eq_ok]
  constructor
  · rintro ⟨⟨e, ins'⟩, h, rfl⟩
    exact ⟨e, decodeWithExt_eq_ok.mp h⟩
  · rintro ⟨e, h⟩
    exact ⟨(e, ins), decodeWithExt_eq_ok.mpr h, rfl⟩

/-- The spec's decode fails exactly so. -/
theorem decode_eq_err {c : Config} {m : Memory} {pc : Nat} {r : Reason} :
    decode c m pc = .err r ↔
      (decodeHead c m pc = none ∧ r = .endOfProgram) ∨
      ∃ e op a, decodeHead c m pc = some (e, op, a) ∧
        m.length < a + Shape.need (Shape.widen (c.shapeOf op) e) ∧
        r = .truncatedInstruction op (Shape.widen (c.shapeOf op) e).length
          (Shape.need (Shape.widen (c.shapeOf op) e)) := by
  unfold decode
  rw [DecodeResult.map_eq_err, decodeWithExt_eq_err]

/-- A successful decode ends past its start and inside the buffer. -/
theorem decode_bounds {c : Config} {m : Memory} {pc next : Nat} {ins : Decoded} (h : decode c m pc = .ok ins next) :
    pc < next ∧ next ≤ m.length := by
  obtain ⟨e, op, a, hh, hl, rfl, -⟩ := decode_eq_ok.mp h
  have := decodeHead_bounds hh
  omega

/-- Every decode is one or the other. -/
theorem decode_cases (c : Config) (m : Memory) (pc : Nat) :
    (∃ ins next, decode c m pc = .ok ins next) ∨ ∃ r, decode c m pc = .err r := by
  cases h : decode c m pc with
  | ok ins next => exact .inl ⟨ins, next, rfl⟩
  | err r => exact .inr ⟨r, rfl⟩

end Sys2Proof
end

