-- ==== Sys2Proof/Laws/State.lean ====
section
/-! SUPPORT. One lemma per field per update of the state. -/

namespace Sys2Proof.Machine

@[simp] theorem State.setPc_buf (s : State) (n : Nat) : (s.setPc n).buf = s.buf := rfl
@[simp] theorem State.setPc_pc (s : State) (n : Nat) : (s.setPc n).pc = n := rfl
@[simp] theorem State.setPc_x (s : State) (n : Nat) : (s.setPc n).x = s.x := rfl
@[simp] theorem State.setPc_status (s : State) (n : Nat) : (s.setPc n).status = s.status := rfl

@[simp] theorem State.fail_buf (s : State) (r : Reason) : (s.fail r).buf = s.buf := rfl
@[simp] theorem State.fail_pc (s : State) (r : Reason) : (s.fail r).pc = s.pc := rfl
@[simp] theorem State.fail_x (s : State) (r : Reason) : (s.fail r).x = s.x := rfl
@[simp] theorem State.fail_status (s : State) (r : Reason) : (s.fail r).status = .failed r := rfl

@[simp] theorem State.halt_buf (s : State) : s.halt.buf = s.buf := rfl
@[simp] theorem State.halt_pc (s : State) : s.halt.pc = s.pc := rfl
@[simp] theorem State.halt_x (s : State) : s.halt.x = s.x := rfl
@[simp] theorem State.halt_status (s : State) : s.halt.status = .halted := rfl

@[simp] theorem State.writeReg_buf (s : State) (n : Nat) (v : Word) : (s.writeReg n v).buf = s.buf := rfl
@[simp] theorem State.writeReg_pc (s : State) (n : Nat) (v : Word) : (s.writeReg n v).pc = s.pc := rfl
@[simp] theorem State.writeReg_x (s : State) (n : Nat) (v : Word) :
    (s.writeReg n v).x = s.x.setIfInBounds n v := rfl
@[simp] theorem State.writeReg_status (s : State) (n : Nat) (v : Word) : (s.writeReg n v).status = s.status := rfl

@[simp] theorem State.unsupported_buf (s : State) (op : Opcode) : (s.unsupported op).buf = s.buf := rfl
@[simp] theorem State.unsupported_pc (s : State) (op : Opcode) : (s.unsupported op).pc = s.pc := rfl
@[simp] theorem State.unsupported_x (s : State) (op : Opcode) : (s.unsupported op).x = s.x := rfl
@[simp] theorem State.unsupported_status (s : State) (op : Opcode) :
    (s.unsupported op).status = .failed (.unsupportedOpcode op) := rfl

/-- A register write reads back in its register. -/
theorem State.readReg_writeReg_same (s : State) (n : Fin numRegs) (v : Word) :
    (s.writeReg n.val v).readReg n = v := by
  simp [State.readReg, State.writeReg]

/-- A register write leaves every other register alone. -/
theorem State.readReg_writeReg_other (s : State) (n : Nat) (r : Fin numRegs) (v : Word) (h : n ≠ r.val) :
    (s.writeReg n v).readReg r = s.readReg r := by
  simp [State.readReg, State.writeReg, h]

end Sys2Proof.Machine
end

