-- ==== Sys2Proof/Laws/Ops.lean ====
section
/-! SUPPORT. Laws of the operands and of the shared operations: argument values, the immediate-load handler, and everything a
dispatch can do. -/

namespace Sys2Proof

/-! ### Signed readings -/

theorem sval_eq_toInt (n : Nat) (b : BitVec n) (hn : 0 < n) : sval n b.toNat = b.toInt := by
  have hp : (2 : Nat) ^ n = 2 * 2 ^ (n - 1) := by
    rw [← Nat.pow_succ']; congr 1; omega
  unfold sval
  rw [BitVec.toInt_eq_toNat_cond]
  split <;> split <;> first | omega | simp

theorem toNat_append_byte (hi lo : Byte) : (hi ++ lo : BitVec 16).toNat = hi.toNat * 256 + lo.toNat := by
  have h := lo.isLt
  rw [BitVec.toNat_append, ← Nat.shiftLeft_add_eq_or_of_lt h, Nat.shiftLeft_eq]

theorem sval_pair (hi lo : Byte) : sval 16 (hi.toNat * 256 + lo.toNat) = (hi ++ lo : BitVec 16).toInt := by
  rw [← toNat_append_byte]; exact sval_eq_toInt 16 _ (by omega)

theorem sext32_toInt {n : Nat} (h : BitVec n) : sext32 h.toInt = h.signExtend 32 := rfl

@[simp] theorem halfOf_extract (h : Half) : halfOf (h.extractLsb' 8 8) (h.extractLsb' 0 8) = h := by
  apply BitVec.eq_of_toNat_eq
  have h1 := toNat_append_byte (h.extractLsb' 8 8) (h.extractLsb' 0 8)
  have h2 := h.isLt
  unfold halfOf
  rw [h1]
  simp [BitVec.extractLsb'_toNat, Nat.shiftRight_eq_div_pow]
  omega

theorem append_extract (h : Half) : (h.extractLsb' 8 8 ++ h.extractLsb' 0 8 : BitVec 16) = h := halfOf_extract h

theorem extract_high (hi lo : Byte) : (halfOf hi lo).extractLsb' 8 8 = hi := by
  apply BitVec.eq_of_toNat_eq
  have h1 := toNat_append_byte hi lo
  have := hi.isLt
  have := lo.isLt
  unfold halfOf
  rw [BitVec.extractLsb'_toNat, h1, Nat.shiftRight_eq_div_pow]
  omega

theorem extract_low (hi lo : Byte) : (halfOf hi lo).extractLsb' 0 8 = lo := by
  apply BitVec.eq_of_toNat_eq
  have h1 := toNat_append_byte hi lo
  have := hi.isLt
  have := lo.isLt
  unfold halfOf
  rw [BitVec.extractLsb'_toNat, h1, Nat.shiftRight_zero]
  omega

/-! ### Argument values -/

theorem Arg.value_u8 {a : Arg} (h : a.spec = .u8) : a.value = .int (a.byte 0).toNat := by simp [Arg.value, h]

theorem Arg.value_s16 {a : Arg} (h : a.spec = .s16) : a.value = .int (sval 16 a.pair) := by simp [Arg.value, h]

@[simp] theorem Arg.spec_ofByte (sg : Sign) (b : Byte) : (Arg.ofByte sg b).spec = { w := .w8, s := sg } := rfl
@[simp] theorem Arg.spec_ofHalf (sg : Sign) (h : Half) : (Arg.ofHalf sg h).spec = { w := .w16, s := sg } := rfl
@[simp] theorem Arg.spec_ofTriple (sg : Sign) (b0 b1 b2 : Byte) :
    (Arg.ofTriple sg b0 b1 b2).spec = { w := .w24, s := sg } := rfl

@[simp] theorem Arg.pair_ofHalf (sg : Sign) (h : Half) : (Arg.ofHalf sg h).pair = h.toNat := by
  have := toNat_append_byte (h.extractLsb' 8 8) (h.extractLsb' 0 8)
  rw [append_extract] at this
  simp [Arg.pair, Arg.byte, Arg.ofHalf] at *
  omega

/-! ### Arguments from their specs and sizes -/

theorem Arg.eq_ofByte {a : Arg} {sg : Sign} (h : a.spec = { w := .w8, s := sg })
    (hl : a.bytes.length = a.spec.w.bytes) : ∃ b, a = Arg.ofByte sg b := by
  obtain ⟨sp, bs⟩ := a
  simp only at h; subst h
  obtain ⟨b, rfl⟩ := List.length_eq_one_iff.mp hl
  exact ⟨b, rfl⟩

theorem Arg.eq_ofHalf {a : Arg} {sg : Sign} (h : a.spec = { w := .w16, s := sg })
    (hl : a.bytes.length = a.spec.w.bytes) : ∃ v, a = Arg.ofHalf sg v := by
  obtain ⟨sp, bs⟩ := a
  simp only at h; subst h
  obtain ⟨hi, lo, rfl⟩ := List.length_eq_two.mp hl
  exact ⟨halfOf hi lo, by simp [Arg.ofHalf, extract_high, extract_low]⟩

theorem Arg.eq_ofTriple {a : Arg} {sg : Sign} (h : a.spec = { w := .w24, s := sg })
    (hl : a.bytes.length = a.spec.w.bytes) : ∃ b0 b1 b2, a = Arg.ofTriple sg b0 b1 b2 := by
  obtain ⟨sp, bs⟩ := a
  simp only at h; subst h
  obtain ⟨b0, b1, b2, rfl⟩ := List.length_eq_three.mp hl
  exact ⟨b0, b1, b2, rfl⟩

/-- A sized argument list with a known first spec is a sized first argument and a sized rest. -/
theorem Arg.cons_of_spec {args : List Arg} {sp : ArgSpec} {rest : Shape} (h : args.map Arg.spec = sp :: rest)
    (hs : Arg.allSized args = true) :
    ∃ a args', args = a :: args' ∧ a.spec = sp ∧ a.bytes.length = a.spec.w.bytes ∧ args'.map Arg.spec = rest ∧
      Arg.allSized args' = true := by
  cases args with
  | nil => simp at h
  | cons a args' =>
    simp only [List.map_cons, List.cons.injEq] at h
    simp only [Arg.allSized, Bool.and_eq_true, decide_eq_true_eq] at hs
    exact ⟨a, args', rfl, h.1, hs.1, h.2, hs.2⟩

theorem Arg.nil_of_spec {args : List Arg} (h : args.map Arg.spec = []) : args = [] := by simpa using h

theorem Arg.length_allBytes (args : List Arg) (hs : Arg.allSized args = true) :
    (Arg.allBytes args).length = Shape.need (args.map Arg.spec) := by
  induction args with
  | nil => rfl
  | cons a rest ih =>
    simp only [Arg.allSized, Bool.and_eq_true, decide_eq_true_eq] at hs
    simp [Arg.allBytes, ih hs.2, hs.1]

end Sys2Proof

namespace Sys2Proof.Machine

/-! ### The immediate-load handler (42_dispatch R177) -/

theorem State.loadReg_of_lt {s : State} {n : Nat} {v : Int} (h : n < numRegs) :
    s.loadReg n v = s.writeReg n (sext32 v) := by
  simp [State.loadReg, Nat.not_le.mpr h]

theorem State.loadReg_of_ge {s : State} {n : Nat} {v : Int} (h : numRegs ≤ n) :
    s.loadReg n v = s.fail (.registerIndexOutOfRange (BitVec.ofNat 8 n)) := by
  simp [State.loadReg, h]

theorem State.loadImmediate_of_spec {s : State} {op : Opcode} {a1 a2 : Arg} (h1 : a1.spec = .u8)
    (h2 : a2.spec = .s16) : s.loadImmediate op [a1, a2] = s.loadReg (a1.byte 0).toNat (sval 16 a2.pair) := by
  simp [State.loadImmediate, h1, h2, Arg.value_u8 h1, Arg.value_s16 h2]

theorem State.loadImmediate_of_mismatch {s : State} {op : Opcode} {args : List Arg}
    (h : args.map Arg.spec ≠ [.u8, .s16]) :
    s.loadImmediate op args = s.fail (.argumentShapeMismatch op (args.map Arg.spec)) := by
  simp [State.loadImmediate, h]

/-- An argument list of shape (U8, S16). -/
theorem args_of_u8_s16 {args : List Arg} (h : args.map Arg.spec = [.u8, .s16]) :
    ∃ a1 a2, args = [a1, a2] ∧ a1.spec = .u8 ∧ a2.spec = .s16 := by
  match args with
  | [] => simp at h
  | [_] => simp at h
  | [a1, a2] => simp at h; exact ⟨a1, a2, rfl, h.1, h.2⟩
  | _ :: _ :: _ :: _ => simp at h

/-- The handler on the operands of the dispatchable form. -/
theorem State.loadImmediate_ofByte_ofHalf (s : State) (op : Opcode) (n : Byte) (v : Half) :
    s.loadImmediate op [.ofByte .u n, .ofHalf .s v]
      = if n.toNat < numRegs then s.writeReg n.toNat (v.signExtend 32)
        else s.fail (.registerIndexOutOfRange n) := by
  rw [State.loadImmediate_of_spec rfl rfl, Arg.pair_ofHalf, sval_eq_toInt 16 v (by omega)]
  have hb : ((Arg.ofByte .u n).byte 0) = n := rfl
  rw [hb]
  split
  · next h => rw [State.loadReg_of_lt h, sext32_toInt]
  · next h => rw [State.loadReg_of_ge (by omega)]; simp

/-! ### Dispatch (42_dispatch R170) -/

/-- Everything a dispatch can do: the cause and the effect of each of its six ends. -/
theorem dispatch_cases (c : Config) (ins : Decoded) (s : State) :
    (ins.op = .real c.ids.halt ∧ dispatch c ins s = s.halt) ∨
    ((c.handlerOf ins.op = .noop ∨ c.handlerOf ins.op = .move) ∧ dispatch c ins s = s) ∨
    (∃ a1 a2, c.handlerOf ins.op = .loadImmediate ∧ ins.op = .real c.ids.loadImmediate ∧ ins.args = [a1, a2] ∧
      a1.spec = .u8 ∧ a2.spec = .s16 ∧ (a1.byte 0).toNat < numRegs ∧
      dispatch c ins s = s.writeReg (a1.byte 0).toNat (sext32 (sval 16 a2.pair))) ∨
    (∃ a1 a2, c.handlerOf ins.op = .loadImmediate ∧ ins.op = .real c.ids.loadImmediate ∧ ins.args = [a1, a2] ∧
      a1.spec = .u8 ∧ a2.spec = .s16 ∧ numRegs ≤ (a1.byte 0).toNat ∧
      dispatch c ins s = s.fail (.registerIndexOutOfRange (a1.byte 0))) ∨
    (c.handlerOf ins.op = .loadImmediate ∧ ins.op = .real c.ids.loadImmediate ∧
      ins.args.map Arg.spec ≠ [.u8, .s16] ∧
      dispatch c ins s = s.fail (.argumentShapeMismatch ins.op (ins.args.map Arg.spec))) ∨
    (c.handlerOf ins.op = .unsupported ∧ dispatch c ins s = s.fail (.unsupportedOpcode ins.op)) := by
  rcases Config.handlerOf_eq (c := c) ins.op with ⟨h, ho⟩ | ⟨h, ho⟩ | ⟨h, ho⟩ | ⟨h, ho⟩ | ⟨h, ho⟩
  · exact .inl ⟨ho, by simp [dispatch, h]⟩
  · exact .inr (.inl ⟨.inl h, by simp [dispatch, h]⟩)
  · exact .inr (.inl ⟨.inr h, by simp [dispatch, h]⟩)
  · have hd : dispatch c ins s = s.loadImmediate ins.op ins.args := by simp [dispatch, h]
    by_cases hs : ins.args.map Arg.spec = [.u8, .s16]
    · obtain ⟨a1, a2, ha, h1, h2⟩ := args_of_u8_s16 hs
      rw [hd, ha, State.loadImmediate_of_spec h1 h2]
      by_cases hn : (a1.byte 0).toNat < numRegs
      · exact .inr (.inr (.inl ⟨a1, a2, h, ho, rfl, h1, h2, hn, State.loadReg_of_lt hn⟩))
      · refine .inr (.inr (.inr (.inl ⟨a1, a2, h, ho, rfl, h1, h2, by omega, ?_⟩)))
        rw [State.loadReg_of_ge (by omega)]; simp
    · exact .inr (.inr (.inr (.inr (.inl ⟨h, ho, hs, by rw [hd, State.loadImmediate_of_mismatch hs]⟩))))
  · exact .inr (.inr (.inr (.inr (.inr ⟨h, by simp [dispatch, h, State.unsupported]⟩))))

/-- No dispatch writes the buffer. -/
@[simp] theorem dispatch_buf (c : Config) (ins : Decoded) (s : State) : (dispatch c ins s).buf = s.buf := by
  rcases dispatch_cases c ins s with ⟨-, h⟩ | ⟨-, h⟩ | ⟨_, _, -, -, -, -, -, -, h⟩ | ⟨_, _, -, -, -, -, -, -, h⟩ |
    ⟨-, -, -, h⟩ | ⟨-, h⟩ <;> simp [h]

/-- No dispatch writes `pc`. -/
@[simp] theorem dispatch_pc (c : Config) (ins : Decoded) (s : State) : (dispatch c ins s).pc = s.pc := by
  rcases dispatch_cases c ins s with ⟨-, h⟩ | ⟨-, h⟩ | ⟨_, _, -, -, -, -, -, -, h⟩ | ⟨_, _, -, -, -, -, -, -, h⟩ |
    ⟨-, -, -, h⟩ | ⟨-, h⟩ <;> simp [h]

end Sys2Proof.Machine
end

