-- ==== Sys2Proof/Laws/Encode.lean ====
section
/-! SUPPORT. Laws that connect an instruction of REF with its parts: prefix, opcode and arguments determine the instruction, and the
other way round. -/

namespace Sys2Proof

/-- The parts an encoding can have: an opcode that can be fetched, no unprefixed prefix, and the sized arguments of the
resolved shape. -/
structure PartsOk (e : Ext) (ins : Decoded) : Prop where
  fetch : Config.ref.fetchable ins.op = true
  plain : e = .none → Config.ref.isExt ins.op = false
  spec : ins.args.map Arg.spec = Shape.widen (Config.ref.shapeOf ins.op) e
  sized : Arg.allSized ins.args = true

theorem partsOk_of_prefixedOk {e : Ext} {op : Opcode} {args : List Arg} (he : e ≠ .none)
    (h : prefixedOk e op args = true) : PartsOk e { op := op, args := args } ∧ op ≠ .real 0x03 := by
  simp only [prefixedOk, Bool.and_eq_true, decide_eq_true_eq] at h
  exact ⟨⟨h.1.1.1, fun hn => absurd hn he, h.1.2, h.2⟩, h.1.1.2⟩

/-- A well-formed instruction has such parts. -/
theorem Instr.partsOk_of_wellFormed (i : Instr) (h : i.wellFormed = true) : PartsOk i.ext i.resolved := by
  cases i
  case extFirst op args => exact (partsOk_of_prefixedOk (by decide) h).1
  case extSecond op args => exact (partsOk_of_prefixedOk (by decide) h).1
  case extBoth op args => exact (partsOk_of_prefixedOk (by decide) h).1
  case boundary => simp [Instr.wellFormed] at h
  all_goals exact ⟨rfl, fun _ => rfl, rfl, rfl⟩

/-- A well-formed instruction is the one its parts give. -/
theorem Instr.ofParts_of_wellFormed (i : Instr) (h : i.wellFormed = true) : Instr.ofParts i.ext i.resolved = i := by
  cases i
  case extFirst op args => exact if_neg (partsOk_of_prefixedOk (e := .first) (by decide) h).2
  case extSecond op args => exact if_neg (partsOk_of_prefixedOk (e := .second) (by decide) h).2
  case extBoth op args => exact if_neg (partsOk_of_prefixedOk (e := .both) (by decide) h).2
  case boundary => simp [Instr.wellFormed] at h
  all_goals
    simp [Instr.ofParts, Instr.ofPlain, Instr.ext, Instr.resolved, Arg.allBytes, Arg.ofByte, Arg.ofHalf, Arg.ofTriple]

/-! ### From parts to the instruction -/

theorem args_cons_byte {args : List Arg} {sg : Sign} {rest : Shape}
    (h : args.map Arg.spec = { w := .w8, s := sg } :: rest) (hz : Arg.allSized args = true) :
    ∃ b args', args = Arg.ofByte sg b :: args' ∧ args'.map Arg.spec = rest ∧ Arg.allSized args' = true := by
  obtain ⟨a, args', rfl, hs, hl, hr, hz⟩ := Arg.cons_of_spec h hz
  obtain ⟨b, rfl⟩ := Arg.eq_ofByte hs hl
  exact ⟨b, args', rfl, hr, hz⟩

theorem args_cons_half {args : List Arg} {sg : Sign} {rest : Shape}
    (h : args.map Arg.spec = { w := .w16, s := sg } :: rest) (hz : Arg.allSized args = true) :
    ∃ v args', args = Arg.ofHalf sg v :: args' ∧ args'.map Arg.spec = rest ∧ Arg.allSized args' = true := by
  obtain ⟨a, args', rfl, hs, hl, hr, hz⟩ := Arg.cons_of_spec h hz
  obtain ⟨v, rfl⟩ := Arg.eq_ofHalf hs hl
  exact ⟨v, args', rfl, hr, hz⟩

theorem args_cons_triple {args : List Arg} {sg : Sign} {rest : Shape}
    (h : args.map Arg.spec = { w := .w24, s := sg } :: rest) (hz : Arg.allSized args = true) :
    ∃ b0 b1 b2 args', args = Arg.ofTriple sg b0 b1 b2 :: args' ∧ args'.map Arg.spec = rest ∧
      Arg.allSized args' = true := by
  obtain ⟨a, args', rfl, hs, hl, hr, hz⟩ := Arg.cons_of_spec h hz
  obtain ⟨b0, b1, b2, rfl⟩ := Arg.eq_ofTriple hs hl
  exact ⟨b0, b1, b2, args', rfl, hr, hz⟩

theorem Config.shapeOf_ref : ∀ i < 18, Config.ref.shapeOf (.real i) = refShapes.getD i [] := by decide

/-- What `Instr.ofParts` gives has the parts it was given, and is well formed. -/
def PartsKept (e : Ext) (ins : Decoded) : Prop :=
  (Instr.ofParts e ins).resolved = ins ∧ (Instr.ofParts e ins).ext = e ∧ (Instr.ofParts e ins).wellFormed = true

/-- LOAD_IMMEDIATE, in its four forms. -/
theorem partsKept_loadImmediate (e : Ext) (args : List Arg) (h : PartsOk e { op := .real 0x03, args := args }) :
    PartsKept e { op := .real 0x03, args := args } := by
  obtain ⟨-, -, hs, hz⟩ := h
  have h3 : Config.ref.shapeOf (.real 0x03) = [.u8, .s8] := by decide
  simp only [h3, Shape.widen_u8_s8] at hs
  unfold PartsKept
  cases e
  case none =>
    obtain ⟨n, r, rfl, hs, hz⟩ := args_cons_byte hs hz
    obtain ⟨v, r, rfl, hs, -⟩ := args_cons_byte hs hz
    obtain rfl := Arg.nil_of_spec hs
    simp [Instr.ofParts, Instr.ofPlain, Instr.ext, Instr.resolved, Instr.wellFormed, Arg.allBytes, Arg.ofByte]
  case first =>
    obtain ⟨n, r, rfl, hs, hz⟩ := args_cons_half hs hz
    obtain ⟨v, r, rfl, hs, -⟩ := args_cons_byte hs hz
    obtain rfl := Arg.nil_of_spec hs
    simp [Instr.ofParts, Instr.ext, Instr.resolved, Instr.wellFormed, Arg.allBytes, Arg.ofByte, Arg.ofHalf]
  case second =>
    obtain ⟨n, r, rfl, hs, hz⟩ := args_cons_byte hs hz
    obtain ⟨v, r, rfl, hs, -⟩ := args_cons_half hs hz
    obtain rfl := Arg.nil_of_spec hs
    simp [Instr.ofParts, Instr.ext, Instr.resolved, Instr.wellFormed, Arg.allBytes, Arg.ofByte, Arg.ofHalf]
  case both =>
    obtain ⟨n, r, rfl, hs, hz⟩ := args_cons_half hs hz
    obtain ⟨v, r, rfl, hs, -⟩ := args_cons_half hs hz
    obtain rfl := Arg.nil_of_spec hs
    simp [Instr.ofParts, Instr.ext, Instr.resolved, Instr.wellFormed, Arg.allBytes, Arg.ofHalf]

/-- The unprefixed opcodes but LOAD_IMMEDIATE. -/
theorem partsKept_plain (op : Opcode) (args : List Arg) (h : PartsOk .none { op := op, args := args })
    (h3 : op ≠ .real 0x03) : PartsKept .none { op := op, args := args } := by
  obtain ⟨hf, hp, hs, hz⟩ := h
  have hx := hp rfl
  simp only [Shape.widen_none] at hf hx hs hz
  unfold PartsKept
  cases op with
  | boundary => simp [Config.fetchable] at hf
  | outOfRange =>
    obtain rfl := Arg.nil_of_spec hs
    simp [Instr.ofParts, Instr.ofPlain, Instr.resolved, Instr.ext, Instr.wellFormed]
  | real i =>
    have hi : i < 18 := by simp only [Config.fetchable, decide_eq_true_eq] at hf; exact hf
    rw [Config.shapeOf_ref i hi] at hs
    have hx4 : Config.ref.isExt (.real 4) = true := by decide
    have hx5 : Config.ref.isExt (.real 5) = true := by decide
    have hx6 : Config.ref.isExt (.real 6) = true := by decide
    have h4 : i ≠ 4 := by rintro rfl; simp [hx4] at hx
    have h5 : i ≠ 5 := by rintro rfl; simp [hx5] at hx
    have h6 : i ≠ 6 := by rintro rfl; simp [hx6] at hx
    have h3' : i ≠ 3 := by rintro rfl; exact h3 rfl
    clear h3 hx hf hp
    interval_cases i
    all_goals try omega
    all_goals
      simp only [refShapes, refNamedShapes, refOneArgShapes, refMoreArgShapes, List.cons_append, List.nil_append,
        List.getD_cons_zero, List.getD_cons_succ] at hs
    all_goals repeat first
      | (obtain ⟨_, r, rfl, hs, hz⟩ := args_cons_byte hs hz)
      | (obtain ⟨_, r, rfl, hs, hz⟩ := args_cons_half hs hz)
      | (obtain ⟨_, _, _, r, rfl, hs, hz⟩ := args_cons_triple hs hz)
    all_goals
      obtain rfl := Arg.nil_of_spec hs
      simp [Instr.ofParts, Instr.ofPlain, Instr.resolved, Instr.ext, Instr.wellFormed, Arg.allBytes, Arg.ofByte,
        Arg.ofHalf, Arg.ofTriple]

/-- Parts that an encoding can have give an instruction that has them. -/
theorem partsKept_of_partsOk (e : Ext) (ins : Decoded) (h : PartsOk e ins) : PartsKept e ins := by
  obtain ⟨op, args⟩ := ins
  by_cases h3 : op = .real 0x03
  · subst h3; exact partsKept_loadImmediate e args h
  · have hid : Config.ref.ids.loadImmediate = 0x03 := rfl
    have hok : e ≠ .none → prefixedOk e op args = true := by
      intro _
      simp only [prefixedOk, hid, Bool.and_eq_true, decide_eq_true_eq]
      exact ⟨⟨⟨h.fetch, h3⟩, h.spec⟩, h.sized⟩
    cases e with
    | none => exact partsKept_plain op args h h3
    | first => simpa [PartsKept, Instr.ofParts, h3, Instr.resolved, Instr.ext, Instr.wellFormed] using hok (by decide)
    | second => simpa [PartsKept, Instr.ofParts, h3, Instr.resolved, Instr.ext, Instr.wellFormed] using hok (by decide)
    | both => simpa [PartsKept, Instr.ofParts, h3, Instr.resolved, Instr.ext, Instr.wellFormed] using hok (by decide)

/-- A decode in REF gives parts that an encoding can have. -/
theorem partsOk_of_decode {m : Machine.Memory} {pc next : Nat} {e : Ext} {ins : Decoded}
    (h : decodeWithExt Config.ref m pc = .ok (e, ins) next) : PartsOk e ins := by
  obtain ⟨op, a, hh, hl, rfl, rfl⟩ := decodeWithExt_eq_ok.mp h
  refine ⟨(decodeHead_bounds hh).2.2.2.1, ?_, takeArgs_spec _ _ _, takeArgs_allSized _ _ _ hl⟩
  rintro rfl
  rcases decodeHead_eq_some.mp hh with ⟨b, hb, hx, -, rfl, rfl⟩ | ⟨b, b2, hb, hx, he, -⟩
  · exact hx
  · exact absurd he.symm (Config.extOf_ne_none hx)

end Sys2Proof
end

