-- ==== Sys2Proof/Laws/Loop.lean ====
section
/-! SUPPORT. Laws of the Execution Loop: what a step is in each of its cases, and how a run unfolds. -/

namespace Sys2Proof.Machine

theorem stepState_ok {c : Config} {s : State} {ins : Decoded} {next : Nat} (hr : s.status = .running)
    (hd : decode c s.buf s.pc = .ok ins next) : stepState c s = dispatch c ins (s.setPc next) := by
  simp [stepState, hr, hd]

theorem stepState_err {c : Config} {s : State} {r : Reason} (hr : s.status = .running)
    (hd : decode c s.buf s.pc = .err r) : stepState c s = s.fail r := by
  simp [stepState, hr, hd]

theorem stepState_terminal {c : Config} {s : State} (h : s.status.terminal = true) : stepState c s = s := by
  unfold stepState
  cases hs : s.status <;> simp_all [Status.terminal]

theorem Status.running_or_terminal (st : Status) : st = .running ∨ st.terminal = true := by
  cases st <;> simp [Status.terminal]

/-- The three cases of a step. -/
theorem stepState_cases (c : Config) (s : State) :
    (s.status.terminal = true ∧ stepState c s = s) ∨
    (∃ r, s.status = .running ∧ decode c s.buf s.pc = .err r ∧ stepState c s = s.fail r) ∨
    ∃ ins next, s.status = .running ∧ decode c s.buf s.pc = .ok ins next ∧
      stepState c s = dispatch c ins (s.setPc next) := by
  rcases Status.running_or_terminal s.status with hr | ht
  · rcases decode_cases c s.buf s.pc with ⟨ins, next, hd⟩ | ⟨r, hd⟩
    · exact .inr (.inr ⟨ins, next, hr, hd, stepState_ok hr hd⟩)
    · exact .inr (.inl ⟨r, hr, hd, stepState_err hr hd⟩)
  · exact .inl ⟨ht, stepState_terminal ht⟩

@[simp] theorem stepState_buf (c : Config) (s : State) : (stepState c s).buf = s.buf := by
  rcases stepState_cases c s with ⟨-, h⟩ | ⟨_, -, -, h⟩ | ⟨_, _, -, -, h⟩ <;> simp [h]

@[simp] theorem runFor_zero (c : Config) (s : State) : runFor c 0 s = s := rfl

/-- One step of a run is a step: a terminal state is its own successor. -/
theorem runFor_succ (c : Config) (n : Nat) (s : State) : runFor c (n + 1) s = runFor c n (stepState c s) := by
  have ht : ∀ (k : Nat) (t : State), t.status.terminal = true → runFor c k t = t := by
    intro k t htt
    cases k with
    | zero => rfl
    | succ k => unfold runFor; cases hs : t.status <;> simp_all [Status.terminal]
  rcases Status.running_or_terminal s.status with hr | htm
  · simp [runFor, hr]
  · rw [stepState_terminal htm, ht _ _ htm, ht _ _ htm]

/-- Nothing happens to a terminal state, however many steps. -/
theorem runFor_terminal (c : Config) (n : Nat) (s : State) (h : s.status.terminal = true) : runFor c n s = s := by
  cases n with
  | zero => rfl
  | succ n => rw [runFor_succ, stepState_terminal h]; exact runFor_terminal c n s h

/-- A property that a step keeps, a run keeps. -/
theorem runFor_induction {c : Config} {P : State → Prop} (hstep : ∀ s, P s → P (stepState c s)) (n : Nat) (s : State)
    (h : P s) : P (runFor c n s) := by
  induction n generalizing s with
  | zero => exact h
  | succ n ih => rw [runFor_succ]; exact ih _ (hstep s h)

end Sys2Proof.Machine
end

