-- ==== Sys2Proof/Laws/MicroSequence.lean ====
section
/-! SUPPORT. Laws of the decoder's micro-sequence: how a run of it unfolds, state by state. -/

namespace Sys2Proof.Machine

theorem microRun_of_goto {c : Config} {m : Memory} {st st' : MicroState} {r r' : MicroRegs} (n : Nat)
    (h : microStep c m st r = .goto st' r') : microRun c m (n + 1) st r = microRun c m n st' r' := by
  simp [microRun, h]

theorem microRun_of_done {c : Config} {m : Memory} {st : MicroState} {r : MicroRegs} {d : DecodeResult Decoded} (n : Nat)
    (h : microStep c m st r = .done d) : microRun c m (n + 1) st r = some d := by
  simp [microRun, h]

/-- `OP0` on a byte. -/
theorem microStep_op0 {c : Config} {m : Memory} {r : MicroRegs} {b : Byte} (h : m.read r.a = some b) :
    microStep c m .op0 r
      = .goto (if c.isExt (c.fromByte b) then .op1 else .shape) { r with op := c.fromByte b, a := r.a + 1 } := by
  simp [microStep, h]

/-- `OP1` on a byte: the latch is set from the prefix that `OP0` read. -/
theorem microStep_op1 {c : Config} {m : Memory} {r : MicroRegs} {b : Byte} (h : m.read r.a = some b) :
    microStep c m .op1 r = .goto .shape { r with ext := c.extOf r.op, op := c.fromByte b, a := r.a + 1 } := by
  simp [microStep, h]

/-- Both fetch states at the end of the buffer. -/
theorem microStep_end {c : Config} {m : Memory} {r : MicroRegs} (h : m.read r.a = none) :
    microStep c m .op0 r = .done (.err .endOfProgram) ∧ microStep c m .op1 r = .done (.err .endOfProgram) := by
  simp [microStep, h]

/-- `ARG(i)` for an argument that the shape has. -/
theorem microStep_arg {c : Config} {m : Memory} {r : MicroRegs} {i : Nat} {sp : ArgSpec} (h : r.shape[i - 1]? = some sp) :
    microStep c m (.arg i) r
      = .goto (if i < r.shape.length then .arg (i + 1) else .emit)
          { r with args := r.args ++ [{ spec := sp, bytes := m.slice r.a sp.w.bytes }], a := r.a + sp.w.bytes } := by
  simp [microStep, h]

end Sys2Proof.Machine
end

