-- ==== Sys2Proof/Laws/PerInstr.lean ====
section
/-! SUPPORT. Family `Encoding`, one lemma per constructor of Instr: the encoding of a well-formed instruction has the length of
30_encoding R64, from 1 byte to REF's longest, 7. -/

namespace Sys2Proof.Laws.Encoding

/-- 30_encoding R64. -/
def Statement (i : Instr) : Prop :=
  i.wellFormed = true → (encode i).length = i.length ∧ 1 ≤ i.length ∧ i.length ≤ maxInstrBytes

/-- Every resolved shape of REF has at most 5 argument bytes. -/
theorem need_widen_ref (op : Opcode) (e : Ext) (h : Config.ref.fetchable op = true) :
    Shape.need (Shape.widen (Config.ref.shapeOf op) e) ≤ 5 := by
  cases op with
  | boundary => simp [Config.fetchable] at h
  | outOfRange => cases e <;> decide
  | real i =>
    have hi : i < 18 := by simp only [Config.fetchable, decide_eq_true_eq] at h; exact h
    rw [Config.shapeOf_ref i hi]
    clear h
    revert i
    cases e <;> decide

/-- The length, from the parts. -/
theorem of_partsOk (i : Instr) (h : PartsOk i.ext i.resolved) :
    (encode i).length = i.length ∧ 1 ≤ i.length ∧ i.length ≤ maxInstrBytes := by
  have hl := Arg.length_allBytes _ h.sized
  have hn := need_widen_ref i.resolved.op i.ext h.fetch
  rw [← h.spec] at hn
  unfold encode Instr.length maxInstrBytes
  cases i.ext <;> simp [Ext.encode, hl] <;> omega

theorem halt : Statement .halt :=
  fun h => of_partsOk _ (Instr.partsOk_of_wellFormed _ h)

theorem noop : Statement .noop :=
  fun h => of_partsOk _ (Instr.partsOk_of_wellFormed _ h)

theorem move (a1 a2 : Byte) : Statement (.move a1 a2) :=
  fun h => of_partsOk _ (Instr.partsOk_of_wellFormed _ h)

theorem loadImmediate (n v : Byte) : Statement (.loadImmediate n v) :=
  fun h => of_partsOk _ (Instr.partsOk_of_wellFormed _ h)

theorem extFirst (op : Opcode) (args : List Arg) : Statement (.extFirst op args) :=
  fun h => of_partsOk _ (Instr.partsOk_of_wellFormed _ h)

theorem extSecond (op : Opcode) (args : List Arg) : Statement (.extSecond op args) :=
  fun h => of_partsOk _ (Instr.partsOk_of_wellFormed _ h)

theorem extBoth (op : Opcode) (args : List Arg) : Statement (.extBoth op args) :=
  fun h => of_partsOk _ (Instr.partsOk_of_wellFormed _ h)

theorem genU8 (a1 : Byte) : Statement (.genU8 a1) :=
  fun h => of_partsOk _ (Instr.partsOk_of_wellFormed _ h)

theorem genS8 (a1 : Byte) : Statement (.genS8 a1) :=
  fun h => of_partsOk _ (Instr.partsOk_of_wellFormed _ h)

theorem genU16 (a1 : Half) : Statement (.genU16 a1) :=
  fun h => of_partsOk _ (Instr.partsOk_of_wellFormed _ h)

theorem genS16 (a1 : Half) : Statement (.genS16 a1) :=
  fun h => of_partsOk _ (Instr.partsOk_of_wellFormed _ h)

theorem genU24 (b0 b1 b2 : Byte) : Statement (.genU24 b0 b1 b2) :=
  fun h => of_partsOk _ (Instr.partsOk_of_wellFormed _ h)

theorem genS24 (b0 b1 b2 : Byte) : Statement (.genS24 b0 b1 b2) :=
  fun h => of_partsOk _ (Instr.partsOk_of_wellFormed _ h)

theorem genU8U8 (a1 a2 : Byte) : Statement (.genU8U8 a1 a2) :=
  fun h => of_partsOk _ (Instr.partsOk_of_wellFormed _ h)

theorem genU8S8 (a1 a2 : Byte) : Statement (.genU8S8 a1 a2) :=
  fun h => of_partsOk _ (Instr.partsOk_of_wellFormed _ h)

theorem genU8U16 (a1 : Byte) (a2 : Half) : Statement (.genU8U16 a1 a2) :=
  fun h => of_partsOk _ (Instr.partsOk_of_wellFormed _ h)

theorem genU16U8 (a1 : Half) (a2 : Byte) : Statement (.genU16U8 a1 a2) :=
  fun h => of_partsOk _ (Instr.partsOk_of_wellFormed _ h)

theorem genU8U8U8 (a1 a2 a3 : Byte) : Statement (.genU8U8U8 a1 a2 a3) :=
  fun h => of_partsOk _ (Instr.partsOk_of_wellFormed _ h)

theorem outOfRange : Statement .outOfRange :=
  fun h => of_partsOk _ (Instr.partsOk_of_wellFormed _ h)

theorem boundary : Statement .boundary :=
  fun h => by cases h

theorem extFirstLoadImmediate (n : Half) (v : Byte) : Statement (.extFirstLoadImmediate n v) :=
  fun h => of_partsOk _ (Instr.partsOk_of_wellFormed _ h)

theorem extSecondLoadImmediate (n : Byte) (v : Half) : Statement (.extSecondLoadImmediate n v) :=
  fun h => of_partsOk _ (Instr.partsOk_of_wellFormed _ h)

theorem extBothLoadImmediate (n v : Half) : Statement (.extBothLoadImmediate n v) :=
  fun h => of_partsOk _ (Instr.partsOk_of_wellFormed _ h)

end Sys2Proof.Laws.Encoding
end

