-- ==== Sys2Proof/Laws/Step.lean ====
section
/-! SUPPORT. Laws of `exec` and `load`: each is one shared operation, whatever its argument. -/

namespace Sys2Proof.Machine

/-- Every instruction's meaning is the dispatch of its decoded form. -/
theorem exec_eq_dispatch (i : Instr) (s : State) : exec i s = .next (dispatch Config.ref i.resolved s) := by
  cases i <;> rfl

/-! ### What a configuration admits (40_opcode_table R109) -/

@[simp] theorem stepAt_of_wellFormed {c : Config} (hc : c.wellFormed = true) (s : State) :
    stepAt c s = .next (stepState c s) := if_pos hc

@[simp] theorem runAt_of_wellFormed {c : Config} (hc : c.wellFormed = true) (s : State) :
    runAt c s = .next (runState c s) := if_pos hc

@[simp] theorem runToEnd_of_wellFormed {c : Config} (hc : c.wellFormed = true) (s : State) :
    runToEnd c s = .next (runState c s, (runState c s).status) := by
  simp [runToEnd, hc]

@[simp] theorem stepAt_of_illFormed {c : Config} (hc : c.wellFormed = false) (s : State) :
    stepAt c s = .refused .illFormedConfig := by
  simp [stepAt, hc]

@[simp] theorem runAt_of_illFormed {c : Config} (hc : c.wellFormed = false) (s : State) :
    runAt c s = .refused .illFormedConfig := by
  simp [runAt, hc]

@[simp] theorem runToEnd_of_illFormed {c : Config} (hc : c.wellFormed = false) (s : State) :
    runToEnd c s = .refused .illFormedConfig := by
  simp [runToEnd, hc]

/-- An admitted load, and what it leaves. -/
theorem load_eq_next {c : Config} {bytes : List Byte} {s t : State} (h : load c bytes s = .next t) :
    c.wellFormed = true ∧ bytes.length ≤ c.maxProgLen ∧ t = State.loaded c bytes := by
  unfold load at h
  split at h <;> [skip; cases h]
  split at h <;> [skip; cases h]
  rename_i hc hl
  injection h with h
  exact ⟨hc, hl, h.symm⟩

/-- A dispatch does not look at the registers: with other registers it writes the same status and the same register. -/
theorem dispatch_withRegs (c : Config) (ins : Decoded) (s : State) (y : Vector Word numRegs) :
    (dispatch c ins { s with x := y }).status = (dispatch c ins s).status ∧
    ∀ r : Fin numRegs, (dispatch c ins { s with x := y }).readReg r = (dispatch c ins s).readReg r ∨
      ((dispatch c ins s).readReg r = s.readReg r ∧ (dispatch c ins { s with x := y }).readReg r = y[r]) := by
  unfold dispatch
  cases c.handlerOf ins.op with
  | halt => exact ⟨rfl, fun r => .inr ⟨rfl, rfl⟩⟩
  | noop => exact ⟨rfl, fun r => .inr ⟨rfl, rfl⟩⟩
  | move => exact ⟨rfl, fun r => .inr ⟨rfl, rfl⟩⟩
  | unsupported => exact ⟨rfl, fun r => .inr ⟨rfl, rfl⟩⟩
  | loadImmediate =>
    dsimp only
    by_cases hs : ins.args.map Arg.spec = [.u8, .s16]
    · obtain ⟨a1, a2, ha, h1, h2⟩ := args_of_u8_s16 hs
      rw [ha, State.loadImmediate_of_spec h1 h2, State.loadImmediate_of_spec h1 h2]
      by_cases hn : (a1.byte 0).toNat < numRegs
      · rw [State.loadReg_of_lt hn, State.loadReg_of_lt hn]
        refine ⟨rfl, fun r => ?_⟩
        by_cases hr : (a1.byte 0).toNat = r.val
        · left; rw [hr, State.readReg_writeReg_same, State.readReg_writeReg_same]
        · right; exact ⟨State.readReg_writeReg_other _ _ _ _ hr, State.readReg_writeReg_other _ _ _ _ hr⟩
      · rw [State.loadReg_of_ge (by omega), State.loadReg_of_ge (by omega)]
        exact ⟨rfl, fun r => .inr ⟨rfl, rfl⟩⟩
    · rw [State.loadImmediate_of_mismatch hs, State.loadImmediate_of_mismatch hs]
      exact ⟨rfl, fun r => .inr ⟨rfl, rfl⟩⟩

end Sys2Proof.Machine
end

