-- ==== Sys2Proof/Tests/Slice0.lean ====
section
/-! SUPPORT. The model's own tests. Expected results are the spec's (95_test_vectors, 30_encoding section 2, 40_opcode_table section 7), or
computed by hand from the rule a test names. The second half holds one witness per statement that has hypotheses. -/

namespace Sys2Proof.Tests

open Sys2Proof.Machine

/-! ### Helpers -/

/-- The state after a load of the bytes under REF, with `pc` moved to `pc`. -/
def at_ (bytes : List Byte) (pc : Nat) : State := (State.loaded Config.ref bytes).setPc pc

/-- The state after a load of the bytes under REF. -/
def start (bytes : List Byte) : State := at_ bytes 0

/-- What the host reads after one step of the machine of REF: status and `pc`. -/
def after (s : State) : Option (Status × Nat) :=
  match step s with
  | .next t => some (t.status, t.pc)
  | .fault _ => none
  | .refused _ => none

/-- Register `i` after one step from a load of the bytes. -/
def regAfter (bytes : List Byte) (i : Fin numRegs) : Option Int :=
  match step (start bytes) with
  | .next t => some (hostReadReg t i).toInt
  | .fault _ => none
  | .refused _ => none

/-- An argument as the vectors give it. -/
structure SeenArg where
  spec : ArgSpec
  value : ArgValue
deriving DecidableEq, Repr

/-- A decode as the vectors give it: opcode, arguments, offset past the instruction. -/
structure Seen where
  op : Opcode
  args : List SeenArg
  next : Nat
deriving DecidableEq, Repr

/-- A decode at offset 0 in REF. -/
def decoded (bytes : List Byte) : Option Seen :=
  match decode Config.ref (Memory.ofBytes bytes) 0 with
  | .ok ins next => some ⟨ins.op, ins.args.map fun a => ⟨a.spec, a.value⟩, next⟩
  | .err _ => none

/-- The instruction of REF at offset 0. -/
def instrAt (bytes : List Byte) : DecodeResult Instr := decodeInstr (Memory.ofBytes bytes) 0

/-! ### Configuration checks (40_opcode_table R109): each refuses an ill-formed term -/

theorem test_ref_is_well_formed : Config.ref.wellFormed = true := by decide

theorem test_wfK_refuses_6_and_255 :
    { Config.ref with K := 6 }.wfK = false ∧ { Config.ref with K := 255 }.wfK = false
      ∧ { Config.ref with K := 7 }.wfK = true ∧ { Config.ref with K := 254 }.wfK = true := by decide

theorem test_wfIdsDistinct_refuses_two_equal_ids :
    { Config.ref with ids := { Config.ref.ids with noop := 0 } }.wfIdsDistinct = false := by decide

theorem test_wfIdsRange_refuses_id_K :
    { Config.ref with ids := { Config.ref.ids with move := 18 } }.wfIdsRange = false := by decide

theorem test_wfTableTotal_refuses_a_short_table :
    { Config.ref with shapeTable := Config.ref.shapeTable.take 17 }.wfTableTotal = false := by decide

/-- T11. -/
def descT11 : ShapeDesc := { argc := 1, w1 := some .w8, w2 := some .w8, w3 := none, s1 := .u, s2 := .u, s3 := .u }

/-- T12. -/
def descT12 : ShapeDesc :=
  { argc := 3, w1 := some .w16, w2 := some .w8, w3 := some .w8, s1 := .u, s2 := .u, s3 := .u }

/-- REF with one more entry in its table. -/
def withDesc (d : ShapeDesc) : Config := { Config.ref with K := 19, shapeTable := Config.ref.shapeTable ++ [d] }

theorem test_T11_is_refused : (withDesc descT11).wfConsistent = false ∧ (withDesc descT11).wellFormed = false := by decide

theorem test_T12_is_refused : (withDesc descT12).wfConsistent = true ∧ (withDesc descT12).wfLegal = false := by decide

theorem test_wfPinned_refuses_a_noop_with_an_argument :
    { Config.ref with ids := { Config.ref.ids with noop := 7, move := 1 } }.wfPinned = false := by decide

theorem test_wfRegReset_refuses_31_entries_and_2_to_31 :
    { Config.ref with regReset := List.replicate 31 0 }.wfRegReset = false
      ∧ { Config.ref with regReset := List.replicate 32 (2 ^ 31) }.wfRegReset = false := by decide

/-! ### Instruction checks: each refuses an ill-formed term -/

theorem test_prefixed_refuses_an_opcode_no_byte_gives :
    (Instr.extFirst (.real 18) []).wellFormed = false ∧ (Instr.extFirst .boundary []).wellFormed = false := by decide

theorem test_prefixed_refuses_load_immediate :
    (Instr.extSecond (.real 3) [.ofByte .u 0, .ofHalf .s 5]).wellFormed = false := by decide

theorem test_prefixed_refuses_the_unwidened_shape :
    (Instr.extFirst (.real 7) [.ofByte .u 1]).wellFormed = false
      ∧ (Instr.extFirst (.real 7) [.ofHalf .u 1]).wellFormed = true := by decide

theorem test_prefixed_refuses_a_wrong_byte_count :
    (Instr.extBoth (.real 7) [{ spec := .u16, bytes := [1] }]).wellFormed = false := by decide

theorem test_boundary_is_not_an_encoding : Instr.boundary.wellFormed = false := rfl

theorem test_li_refuses_32768 :
    (AsmStmt.li 0 32768).wellFormed Config.ref = false ∧ (AsmStmt.li 0 (-32769)).wellFormed Config.ref = false
      ∧ (AsmStmt.li 0 (-32768)).wellFormed Config.ref = true := by decide

theorem test_asm_move_refuses_one_byte :
    (AsmStmt.move [0]).wellFormed Config.ref = false ∧ (AsmStmt.move [0, 31]).wellFormed Config.ref = true := by decide

theorem test_memory_wf_refuses_each_broken_form :
    Memory.wf { length := 2, cells := [(1, 5), (0, 5)] } = false ∧ Memory.wf { length := 2, cells := [(2, 5)] } = false
      ∧ Memory.wf { length := 2, cells := [(0, 0)] } = false ∧ Memory.wf { length := 2, cells := [(0, 5)] } = true := by decide

/-! ### Opcode table: T1 to T10 -/

theorem test_T1_to_T5 :
    [0x00, 0x11, 0x12, 0x80, 0xFF].map Config.ref.fromByte
      = [.real 0, .real 17, .outOfRange, .outOfRange, .outOfRange] := by decide

theorem test_T6_to_T8 :
    Config.ref.toByte .outOfRange = 0xFF ∧ Config.ref.toByte .boundary = 0x12
      ∧ Config.ref.fromByte 0x12 = .outOfRange ∧ Config.ref.toByte (Config.ref.fromByte 0x9C) = 0xFF := by decide

theorem test_T9_T10 :
    Config.ref.shapeOf (.real 3) = [.u8, .s8] ∧ Config.ref.shapeOf .outOfRange = []
      ∧ Config.ref.shapeOf .boundary = [] := by decide

/-! ### Widening: X1 to X9 -/

theorem test_X1_to_X4 :
    Shape.widen [.u8, .s8] .first = [.u16, .s8] ∧ Shape.widen [.u8, .s8] .second = [.u8, .s16]
      ∧ Shape.widen [.u8, .s8] .both = [.u16, .s16] ∧ Shape.widen [] .both = [] := by decide

theorem test_X5_to_X9 :
    Shape.widen [.u8] .second = [.u8] ∧ Shape.widen [.s8] .first = [.s16] ∧ Shape.widen [.u24] .first = [.u24]
      ∧ Shape.widen [.u8, .u16] .second = [.u8, .u16] ∧ Shape.widen [.u8, .u8, .u8] .both = [.u16, .u16, .u8] := by
  decide

/-! ### Words written out from the encoding, every constructor of REF -/

theorem test_decode_named_words :
    instrAt [0x00] = .ok .halt 1 ∧ instrAt [0x01] = .ok .noop 1 ∧ instrAt [0x02, 5, 6] = .ok (.move 5 6) 3
      ∧ instrAt [0x03, 0x00, 0x05] = .ok (.loadImmediate 0 5) 3 := by decide

theorem test_decode_prefixed_load_immediate_words :
    instrAt [0x04, 0x03, 0x00, 0x01, 0x05] = .ok (.extFirstLoadImmediate 1 5) 5
      ∧ instrAt [0x05, 0x03, 0x00, 0x01, 0xF4] = .ok (.extSecondLoadImmediate 0 500) 5
      ∧ instrAt [0x06, 0x03, 0x00, 0x07, 0x00, 0x01] = .ok (.extBothLoadImmediate 7 1) 6 := by decide

theorem test_decode_prefixed_words :
    instrAt [0x04, 0x00] = .ok (.extFirst (.real 0) []) 2
      ∧ instrAt [0x05, 0x05, 0x00] = .ok (.extSecond (.real 5) []) 2
      ∧ instrAt [0x06, 0x02, 0x00, 0x01, 0x00, 0x02] = .ok (.extBoth (.real 2) [.ofHalf .u 1, .ofHalf .u 2]) 6 := by decide

theorem test_decode_one_argument_words :
    instrAt [0x07, 0xFF] = .ok (.genU8 255) 2 ∧ instrAt [0x08, 0x80] = .ok (.genS8 0x80) 2
      ∧ instrAt [0x09, 0x12, 0x34] = .ok (.genU16 0x1234) 3 ∧ instrAt [0x0A, 0xFF, 0xFE] = .ok (.genS16 0xFFFE) 3
      ∧ instrAt [0x0B, 0xAB, 0xCD, 0xEF] = .ok (.genU24 0xAB 0xCD 0xEF) 4
      ∧ instrAt [0x0C, 0xFF, 0x00, 0x01] = .ok (.genS24 0xFF 0x00 0x01) 4 := by decide

theorem test_decode_two_and_three_argument_words :
    instrAt [0x0D, 1, 2] = .ok (.genU8U8 1 2) 3 ∧ instrAt [0x0E, 0x01, 0xFF] = .ok (.genU8S8 1 0xFF) 3
      ∧ instrAt [0x0F, 0x12, 0x34, 0x56] = .ok (.genU8U16 0x12 0x3456) 4
      ∧ instrAt [0x10, 0x12, 0x34, 0x56] = .ok (.genU16U8 0x1234 0x56) 4
      ∧ instrAt [0x11, 1, 2, 3] = .ok (.genU8U8U8 1 2 3) 4 := by decide

theorem test_decode_out_of_range_words :
    instrAt [0x12] = .ok .outOfRange 1 ∧ instrAt [0xFF, 0, 0, 0] = .ok .outOfRange 1
      ∧ instrAt [0x04, 0xFF] = .ok (.extFirst .outOfRange []) 2 := by decide

theorem test_encode_li_r0_500 :
    encode (.extSecondLoadImmediate 0 500) = [0x05, 0x03, 0x00, 0x01, 0xF4]
      ∧ (AsmStmt.li 0 500).assemble Config.ref = [0x05, 0x03, 0x00, 0x01, 0xF4]
      ∧ encode (.genU8U16 0x12 0x3456) = [0x0F, 0x12, 0x34, 0x56] := by decide

/-! ### Arguments and prefix fusion: A1 to A27 -/

theorem test_A1_to_A4 :
    decoded [0x07, 0xFF] = some ⟨.real 7, [⟨.u8, .int 255⟩], 2⟩ ∧ decoded [0x08, 0xFF] = some ⟨.real 8, [⟨.s8, .int (-1)⟩], 2⟩
      ∧ decoded [0x08, 0x80] = some ⟨.real 8, [⟨.s8, .int (-128)⟩], 2⟩
      ∧ decoded [0x08, 0x7F] = some ⟨.real 8, [⟨.s8, .int 127⟩], 2⟩ := by decide

theorem test_A5_to_A9 :
    decoded [0x09, 0x12, 0x34] = some ⟨.real 9, [⟨.u16, .int 4660⟩], 3⟩
      ∧ decoded [0x0A, 0xFF, 0xFE] = some ⟨.real 10, [⟨.s16, .int (-2)⟩], 3⟩
      ∧ decoded [0x0A, 0x80, 0x00] = some ⟨.real 10, [⟨.s16, .int (-32768)⟩], 3⟩
      ∧ decoded [0x0B, 0xAB, 0xCD, 0xEF] = some ⟨.real 11, [⟨.u24, .raw 0xAB 0xCD 0xEF⟩], 4⟩
      ∧ decoded [0x0C, 0xFF, 0x00, 0x01] = some ⟨.real 12, [⟨.s24, .raw 0xFF 0x00 0x01⟩], 4⟩ := by decide +kernel

theorem test_A10_to_A13 :
    decoded [0x04, 0x07, 0x01, 0x02] = some ⟨.real 7, [⟨.u16, .int 258⟩], 4⟩
      ∧ decoded [0x04, 0x08, 0xFF, 0xFF] = some ⟨.real 8, [⟨.s16, .int (-1)⟩], 4⟩
      ∧ decoded [0x05, 0x07, 0x01] = some ⟨.real 7, [⟨.u8, .int 1⟩], 3⟩
      ∧ decoded [0x06, 0x11, 0, 1, 0, 2, 3] = some ⟨.real 17, [⟨.u16, .int 1⟩, ⟨.u16, .int 2⟩, ⟨.u8, .int 3⟩], 7⟩ := by decide +kernel

theorem test_A14_to_A18 :
    decoded [0x04, 0x11, 1, 2, 3, 4] = some ⟨.real 17, [⟨.u16, .int 258⟩, ⟨.u8, .int 3⟩, ⟨.u8, .int 4⟩], 6⟩
      ∧ decoded [0x05, 0x11, 1, 2, 3, 4] = some ⟨.real 17, [⟨.u8, .int 1⟩, ⟨.u16, .int 515⟩, ⟨.u8, .int 4⟩], 6⟩
      ∧ decoded [0x05, 0x0F, 1, 2, 3] = some ⟨.real 15, [⟨.u8, .int 1⟩, ⟨.u16, .int 515⟩], 5⟩
      ∧ decoded [0x04, 0x0F, 1, 2, 3, 4] = some ⟨.real 15, [⟨.u16, .int 258⟩, ⟨.u16, .int 772⟩], 6⟩
      ∧ decoded [0x05, 0x10, 1, 2, 3, 4] = some ⟨.real 16, [⟨.u16, .int 258⟩, ⟨.u16, .int 772⟩], 6⟩ := by decide

theorem test_A19_to_A23 :
    decoded [0x06, 0x02, 0, 1, 0, 2] = some ⟨.real 2, [⟨.u16, .int 1⟩, ⟨.u16, .int 2⟩], 6⟩
      ∧ decoded [0x04, 0x0B, 1, 2, 3] = some ⟨.real 11, [⟨.u24, .raw 1 2 3⟩], 5⟩
      ∧ decoded [0x05, 0x0A, 1, 2] = some ⟨.real 10, [⟨.s16, .int 258⟩], 4⟩ ∧ decoded [0x04, 0x00] = some ⟨.real 0, [], 2⟩
      ∧ decoded [0x05, 0x05, 0x00] = some ⟨.real 5, [], 2⟩ := by decide +kernel

theorem test_A24_to_A27 :
    decoded [0x04, 0xFF] = some ⟨.outOfRange, [], 2⟩ ∧ decoded [0x04, 0x12] = some ⟨.outOfRange, [], 2⟩
      ∧ decoded [0x0E, 0x01, 0xFF] = some ⟨.real 14, [⟨.u8, .int 1⟩, ⟨.s8, .int (-1)⟩], 3⟩
      ∧ decoded [0x03, 0x00, 0x05] = some ⟨.real 3, [⟨.u8, .int 0⟩, ⟨.s8, .int 5⟩], 3⟩ := by decide

/-! ### Buffer boundary: B1 to B10 (the failing step leaves `pc`) -/

theorem test_B1_to_B3 :
    after (start []) = some (.failed .endOfProgram, 0) ∧ after (at_ [0, 0] 2) = some (.failed .endOfProgram, 2)
      ∧ after (start [0x04]) = some (.failed .endOfProgram, 0) := by decide

theorem test_B4_to_B7 :
    after (start [0x03]) = some (.failed (.truncatedInstruction (.real 3) 2 2), 0)
      ∧ after (start [0x03, 1]) = some (.failed (.truncatedInstruction (.real 3) 2 2), 0)
      ∧ instrAt [0x03, 1, 2] = .ok (.loadImmediate 1 2) 3
      ∧ after (start [0x05, 0x03, 0, 1]) = some (.failed (.truncatedInstruction (.real 3) 2 3), 0) := by decide

theorem test_B8_to_B10 :
    after (start [0x0B, 1, 2]) = some (.failed (.truncatedInstruction (.real 11) 1 3), 0)
      ∧ after (start [0x09, 1]) = some (.failed (.truncatedInstruction (.real 9) 1 2), 0)
      ∧ after (start [0x06, 0x11, 0, 1, 0, 2]) = some (.failed (.truncatedInstruction (.real 17) 3 5), 0) := by decide

/-! ### Dispatch: S1 to S21, and one step of every placeholder -/

theorem test_S1_to_S5 :
    after (start [0x00]) = some (.halted, 1) ∧ after (start [0x04, 0x00, 0x01]) = some (.halted, 2)
      ∧ after (start [0x01]) = some (.running, 1) ∧ after (start [0x02, 5, 6]) = some (.running, 3)
      ∧ after (start [0x02, 0xFF, 0xFF]) = some (.running, 3) := by decide

theorem test_S6_to_S9 :
    regAfter [0x05, 0x03, 0x00, 0x01, 0xF4] 0 = some 500 ∧ regAfter [0x05, 0x03, 0x1F, 0xFF, 0xFF] 31 = some (-1)
      ∧ regAfter [0x05, 0x03, 0x07, 0x80, 0x00] 7 = some (-32768)
      ∧ regAfter [0x05, 0x03, 0x07, 0x7F, 0xFF] 7 = some 32767 := by decide

theorem test_S6_leaves_the_other_registers_and_runs_on :
    regAfter [0x05, 0x03, 0x07, 0x01, 0xF4] 6 = some 0 ∧ regAfter [0x05, 0x03, 0x07, 0x01, 0xF4] 8 = some 0
      ∧ after (start [0x05, 0x03, 0x00, 0x01, 0xF4]) = some (.running, 5) := by decide

theorem test_S10_S11 :
    after (start [0x05, 0x03, 0x20, 0x00, 0x01]) = some (.failed (.registerIndexOutOfRange 32), 5)
      ∧ after (start [0x05, 0x03, 0xFF, 0x00, 0x01]) = some (.failed (.registerIndexOutOfRange 255), 5) := by decide

theorem test_S12_to_S15 :
    after (start [0x03, 0x00, 0x05]) = some (.failed (.argumentShapeMismatch (.real 3) [.u8, .s8]), 3)
      ∧ after (start [0x04, 0x03, 0, 1, 5]) = some (.failed (.argumentShapeMismatch (.real 3) [.u16, .s8]), 5)
      ∧ after (start [0x06, 0x03, 0, 0, 0, 1]) = some (.failed (.argumentShapeMismatch (.real 3) [.u16, .s16]), 6)
      ∧ after (start [0x03, 0x40, 0x05]) = some (.failed (.argumentShapeMismatch (.real 3) [.u8, .s8]), 3) := by decide

theorem test_S16_to_S19 :
    after (start [0x07, 0x00]) = some (.failed (.unsupportedOpcode (.real 7)), 2)
      ∧ after (start [0x12]) = some (.failed (.unsupportedOpcode .outOfRange), 1)
      ∧ after (start [0x05, 0x05, 0x00]) = some (.failed (.unsupportedOpcode (.real 5)), 2)
      ∧ after (start [0x04]) = some (.failed .endOfProgram, 0) := by decide

theorem test_S17_status_field_op_is_FF :
    statusFields Config.ref (.failed (.unsupportedOpcode .outOfRange))
      = { state := 2, reason := 3, op := 0xFF, argc := 0, bytesNeeded := 0, index := 0, got := [] } := by decide

/-- S20, its second write: the second value stands. -/
theorem test_S20_second_write_stands :
    (((start []).loadReg 0 1).loadReg 0 2).readReg 0 = 2 := by decide

theorem test_S21_terminal_step_changes_nothing :
    after ((start [0x00]).halt) = some (.halted, 0)
      ∧ after ((start [0x00]).fail .endOfProgram) = some (.failed .endOfProgram, 0) := by decide

theorem test_every_placeholder_is_unsupported_past_its_arguments :
    [[0x08, 0], [0x09, 0, 0], [0x0A, 0, 0], [0x0B, 0, 0, 0], [0x0C, 0, 0, 0], [0x0D, 0, 0], [0x0E, 0, 0], [0x0F, 0, 0, 0],
      [0x10, 0, 0, 0], [0x11, 0, 0, 0]].map (fun bs => after (start bs))
    = [(8, 2), (9, 3), (10, 3), (11, 4), (12, 4), (13, 3), (14, 3), (15, 4), (16, 4), (17, 4)].map
        (fun p => some (.failed (.unsupportedOpcode (.real p.1)), p.2)) := by decide

theorem test_boundary_would_be_unsupported :
    (match exec .boundary (start []) with
      | .next t => some t.status
      | .fault _ => none
      | .refused _ => none) = some (.failed (.unsupportedOpcode .boundary)) := by decide

/-- P3: the failing decode leaves `pc` at the prefix byte. -/
theorem test_P3_truncated_final_instruction :
    after (at_ [0x05, 0x03, 0x03, 0x12, 0x34, 0x05, 0x03, 0x04, 0x00] 5)
      = some (.failed (.truncatedInstruction (.real 3) 2 3), 5) := by decide

/-- 10_state R26 and 60_exceptions R212, the codes written out. -/
theorem test_status_fields_by_reason :
    statusFields Config.ref .running = ⟨0, 0, 0, 0, 0, 0, []⟩ ∧ statusFields Config.ref .halted = ⟨1, 0, 0, 0, 0, 0, []⟩
      ∧ statusFields Config.ref (.failed .endOfProgram) = ⟨2, 1, 0, 0, 0, 0, []⟩
      ∧ statusFields Config.ref (.failed (.truncatedInstruction (.real 17) 3 5)) = ⟨2, 2, 17, 3, 5, 0, []⟩
      ∧ statusFields Config.ref (.failed (.registerIndexOutOfRange 32)) = ⟨2, 4, 0, 0, 0, 32, []⟩
      ∧ statusFields Config.ref (.failed (.argumentShapeMismatch (.real 3) [.u8, .s8])) = ⟨2, 5, 3, 0, 0, 0, [.u8, .s8]⟩ := by
  decide

/-- 40_opcode_table R109: an ill-formed configuration is refused, by a run as by a step. -/
theorem test_ill_formed_configuration_is_refused_a_run :
    (match runToEnd (withDesc descT11) (start [0x00]) with
      | .next _ => false
      | .fault _ => false
      | .refused r => decide (r = .illFormedConfig)) = true
      ∧ (match runToEnd Config.ref (start [0x00]) with
      | .next p => decide (p.2 = .halted)
      | .fault _ => false
      | .refused _ => false) = true := by decide

/-! ### The opcode table's words -/

theorem test_table_words_named :
    [(8, 0x00), (8, 0x01), (8, 0x02), (8, 0x03), (8, 0xFF)].map (fun p => decodeTableWord p.1 p.2)
      = [some .halt, some .noop, some (.move 0 0), some (.loadImmediate 0 0), some .outOfRange] := by decide

theorem test_table_words_prefixes :
    [(8, 0x04), (8, 0x05), (8, 0x06), (16, 0x0403), (16, 0x0503), (16, 0x0603)].map (fun p => decodeTableWord p.1 p.2)
      = [some (.extFirst (.real 0) []), some (.extSecond (.real 0) []), some (.extBoth (.real 0) []),
          some (.extFirstLoadImmediate 0 0), some (.extSecondLoadImmediate 0 0), some (.extBothLoadImmediate 0 0)] := by decide

theorem test_table_words_placeholders :
    [0x07, 0x08, 0x09, 0x0A, 0x0B, 0x0C, 0x0D, 0x0E, 0x0F, 0x10, 0x11].map (fun w => decodeTableWord 8 w)
      = [some (.genU8 0), some (.genS8 0), some (.genU16 0), some (.genS16 0), some (.genU24 0 0 0), some (.genS24 0 0 0),
          some (.genU8U8 0 0), some (.genU8S8 0 0), some (.genU8U16 0 0), some (.genU16U8 0 0), some (.genU8U8U8 0 0 0)] := by
  decide

theorem test_placed_word_runs_first_after_reset :
    after (State.reset.withFetchWord 8 0x00) = some (.halted, 1)
      ∧ after (State.reset.withFetchWord 16 0x0503) = some (.running, 5) := by decide

/-! ### Witnesses: hypotheses of the statements, met together by concrete values, at the edges of their clauses -/

/-- A configuration other than REF: other ids, one opcode of shape (U24, U24), a register reset to -1, one program byte. -/
def tiny : Config :=
  { K := 8
    ids := { halt := 7, noop := 1, move := 2, loadImmediate := 3, extFirst := 6, extSecond := 5, extBoth := 4 }
    shapeTable := [[.u24, .u24], [], [.s16], [.u8, .s8], [], [], [], []].map ShapeDesc.ofShape
    regReset := (-1) :: List.replicate 31 0
    maxProgLen := 1 }

/-- What a load answers. -/
def loaded (c : Config) (bytes : List Byte) (s : State) : Option State :=
  match load c bytes s with
  | .next t => some t
  | .fault _ => none
  | .refused _ => none

/-- Whether an outcome is this next state. -/
def isNext (o : Host.Outcome State Fault Refusal) (t : State) : Bool :=
  match o with
  | .next u => decide (u = t)
  | .fault _ => false
  | .refused _ => false

theorem isNext_iff (o : Host.Outcome State Fault Refusal) (t : State) : isNext o t = true ↔ o = .next t := by
  cases o <;> simp [isNext]

theorem witness_LoadReplacesTheWholeState :
    tiny.wellFormed = true ∧ [(0x07 : Byte)].length ≤ tiny.maxProgLen ∧ ([] : List Byte).length ≤ tiny.maxProgLen := by decide

theorem witness_LongLoadIsRefused :
    tiny.wellFormed = true ∧ tiny.maxProgLen < [(0x07 : Byte), 0x07].length := by decide

theorem witness_IllFormedConfigurationIsRefused :
    (withDesc descT11).wellFormed = false ∧ Config.ref.wellFormed = true := by decide

theorem witness_FinalStateIsAFunctionOfTheProgram :
    load Config.ref [0x00] State.reset = .next (start [0x00])
      ∧ load Config.ref [0x00] ((start [0x07]).fail .endOfProgram) = .next (start [0x00])
      ∧ (start [0x07]).fail .endOfProgram ≠ State.reset := by
  refine ⟨(isNext_iff _ _).mp ?_, (isNext_iff _ _).mp ?_, ?_⟩ <;> decide +kernel

theorem witness_OnlyLoadWritesTheBuffer :
    Config.ref.wellFormed = true ∧ step (start [0x01]) = .next (at_ [0x01] 1) ∧ load Config.ref [0x00, 0x05] (start [0x01]) = .next (start [0x00, 0x05]) := by
  refine ⟨by decide, (isNext_iff _ _).mp ?_, (isNext_iff _ _).mp ?_⟩ <;> decide +kernel

theorem witness_CanonicalBuffersWithEqualBytesAreEqual :
    (Memory.ofBytes [0, 5]).wf = true ∧ Memory.wf { length := 2, cells := [(1, 5)] } = true
      ∧ ∀ a, (Memory.ofBytes [0, 5]).read a = Memory.read { length := 2, cells := [(1, 5)] } a :=
  ⟨by decide, by decide, fun _ => rfl⟩

theorem witness_FromByteIsATotalBoundsCheck :
    Config.ref.wellFormed = true ∧ (0x11 : Byte).toNat < Config.ref.K ∧ Config.ref.K ≤ (0x12 : Byte).toNat
      ∧ Config.ref.K ≤ (0xFF : Byte).toNat
      ∧ decode Config.ref (Memory.ofBytes [0x12]) 0 = .ok { op := .outOfRange, args := [] } 1
      ∧ decode Config.ref (Memory.ofBytes [0x0B]) 0 = .err (.truncatedInstruction (.real 11) 1 3)
      ∧ (start [0x12]).buf = Memory.ofBytes [0x12] ∧ (start [0x12]).pc = 0 := by decide

theorem witness_OpcodeBytesRoundTrip :
    Config.ref.wellFormed = true ∧ Config.ref.fetchable (.real 17) = true ∧ Config.ref.fetchable .outOfRange = true
      ∧ Config.ref.fetchable (.real 18) = false ∧ Config.ref.toByte (.real 17) = Config.ref.toByte (.real 17) := by decide

theorem witness_ConsistentDescriptorIsItsShape :
    (ShapeDesc.ofShape [.u8, .s16]).consistent = true ∧ (ShapeDesc.ofShape [.u8, .s16]).argc.val < 3
      ∧ (ShapeDesc.ofShape [.u24]).argc.val < 2 ∧ (ShapeDesc.ofShape []).argc.val < 1
      ∧ (ShapeDesc.ofShape [.u8, .s16]).toShape[1]? = some .s16 ∧ (ShapeDesc.ofShape [.u8, .u8, .s8]).toShape[2]? = some .s8
      ∧ descT11 ∈ (withDesc descT11).shapeTable ∧ descT11.consistent = false := by decide

theorem witness_WideningIsExact :
    ([.u8, .u8, .s8] : Shape)[0]? = some .u8 ∧ ([.u8, .u8, .s8] : Shape)[1]? = some .u8
      ∧ ([.u8, .u8, .s8] : Shape)[2]? = some .s8 := by decide

theorem witness_ResolvedShapesAreBounded :
    tiny.wellFormed = true ∧ Shape.need (Shape.widen (tiny.shapeOf (.real 0)) .none) = 6
      ∧ (Shape.widen (Config.ref.shapeOf (.real 17)) .both).length = 3 := by decide

theorem witness_ArgumentValuesAreAsTabulated :
    (31 : Byte).toNat < numRegs ∧ ¬ (32 : Byte).toNat < numRegs ∧ ((0x80 : Byte) ++ (0x00 : Byte)).toInt = -32768
      ∧ ((0x7F : Byte) ++ (0xFF : Byte)).toInt = 32767 := by decide

theorem witness_PrefixWidensTheNextInstruction :
    Config.ref.wellFormed = true ∧ (4 : Byte) = Config.ref.toByte (.real Config.ref.ids.extFirst)
      ∧ (5 : Byte) = Config.ref.toByte (.real Config.ref.ids.extSecond)
      ∧ (6 : Byte) = Config.ref.toByte (.real Config.ref.ids.extBoth)
      ∧ (Memory.ofBytes [4]).read 0 = some 4 ∧ (Memory.ofBytes [4]).read 1 = none
      ∧ (Memory.ofBytes [5, 3, 0, 1]).read 1 = some 3 ∧ (Memory.ofBytes [5, 3, 0, 1]).length < 0 + 2 + 3
      ∧ 0 + 2 + 3 ≤ (Memory.ofBytes [5, 3, 0, 1, 0xF4]).length ∧ (Config.ref.shapeOf (.real 3))[1]? = some .s8 := by decide

theorem witness_PrefixAfterPrefixIsUnsupported :
    Config.ref.wellFormed = true ∧ (start [4, 6]).status = .running ∧ (start [4, 6]).buf.read 0 = some 4
      ∧ (start [4, 6]).buf.read (0 + 1) = some 6 ∧ Config.ref.isExt (Config.ref.fromByte 4) = true
      ∧ Config.ref.isExt (Config.ref.fromByte 6) = true := by decide

theorem witness_EndOfProgramInExactlyTwoCases :
    Config.ref.wellFormed = true ∧ (at_ [0] 1).pc ≤ (at_ [0] 1).buf.length ∧ (at_ [0] 1).status = .running
      ∧ decode Config.ref (at_ [0] 1).buf (at_ [0] 1).pc = .err .endOfProgram
      ∧ (at_ [0, 4] 1).pc ≤ (at_ [0, 4] 1).buf.length
      ∧ decode Config.ref (at_ [0, 4] 1).buf (at_ [0, 4] 1).pc = .err .endOfProgram := by decide

theorem witness_TruncationExactlyWhenArgumentsDoNotFit :
    Config.ref.wellFormed = true ∧ decode Config.ref (Memory.ofBytes [3, 1]) 0 = .err (.truncatedInstruction (.real 3) 2 2)
      ∧ decode Config.ref (Memory.ofBytes [5, 3, 0, 1]) 0 = .err (.truncatedInstruction (.real 3) 2 3) := by decide

theorem witness_DecodeStaysInTheBuffer :
    Config.ref.wellFormed = true ∧ 0 ≤ (Memory.ofBytes [0]).length ∧ (Memory.ofBytes [0]).length ≤ (Memory.ofBytes [0]).length := by decide

theorem witness_NoByteValueFailsDecoding :
    Config.ref.wellFormed = true ∧ decode Config.ref (Memory.ofBytes []) 0 = .err .endOfProgram
      ∧ (Memory.ofBytes [0x12]).read 0 = some 0x12 ∧ Config.ref.K ≤ (0x12 : Byte).toNat ∧ (start [0x12]).status = .running
      ∧ (start [0x12]).buf = Memory.ofBytes [0x12] ∧ (start [0x12]).pc = 0
      ∧ (Memory.ofBytes [0x0D, 1, 2]).read 0 = some 0x0D ∧ Config.ref.isExt (Config.ref.fromByte 0x0D) = false
      ∧ 0 + 1 + Shape.need (Config.ref.shapeOf (Config.ref.fromByte 0x0D)) ≤ (Memory.ofBytes [0x0D, 1, 2]).length := by decide

theorem witness_DecodeReadsOnlyTheInstruction :
    Config.ref.wellFormed = true ∧ decode Config.ref (Memory.ofBytes [9, 0, 7, 1]) 1 = .ok { op := .real 0, args := [] } 2
      ∧ ∀ a, 1 ≤ a → a < 2 → (Memory.ofBytes [0xFF, 0, 0]).read a = (Memory.ofBytes [9, 0, 7, 1]).read a :=
  ⟨by decide, by decide, fun a h1 h2 => (by omega : a = 1) ▸ (by decide)⟩

theorem witness_DecodedArgumentsMatchTheResolvedShape :
    Config.ref.wellFormed = true ∧ decode Config.ref (Memory.ofBytes [5, 7, 1]) 0 = .ok { op := .real 7, args := [.ofByte .u 1] } 3 := by decide

theorem witness_MicroSequenceImplementsDecode : tiny.wellFormed = true ∧ Config.ref.wellFormed = true := by decide

theorem witness_DecodeOfEncodeIsTheInstruction :
    (Instr.extBoth (.real 17) [.ofHalf .u 1, .ofHalf .u 2, .ofByte .u 3]).wellFormed = true := by decide

theorem witness_EncodeOfDecodeIsTheBytes :
    decodeInstr (Memory.ofBytes [0, 0x0F, 0x12, 0x34, 0x56]) 1 = .ok (.genU8U16 0x12 0x3456) 5
      ∧ (Instr.genU8U16 0x12 0x3456).resolved.op ≠ .outOfRange := by decide

theorem witness_PlacedTableWordIsWhatTheStepRuns : decodeTableWord 16 0x0503 = some (.extSecondLoadImmediate 0 0) := by decide

theorem witness_LoadImmediateWritesTheSignExtendedValue :
    (31 : Byte).toNat < numRegs ∧ numRegs ≤ (32 : Byte).toNat ∧ numRegs ≤ (255 : Byte).toNat := by decide

theorem witness_RegisterIndexFailureFromThirtyTwoOn :
    Config.ref.wellFormed = true ∧ (start []).status = .running ∧ 32 ≤ (32 : Byte).toNat ∧ ¬ 32 ≤ (31 : Byte).toNat := by decide

theorem witness_PrefixedInstructionRunsTheOpcodeAfterThePrefix :
    (Opcode.real 0x04 ≠ .real 0x00 ∧ Opcode.real 0x04 ≠ .real 0x01 ∧ Opcode.real 0x04 ≠ .real 0x02
      ∧ Opcode.real 0x04 ≠ .real 0x03) ∧ (Instr.extFirst (.real 0x04) []).wellFormed = true
      ∧ (Instr.extBoth (.real 0x00) []).wellFormed = true ∧ (Instr.extSecond (.real 0x01) []).wellFormed = true := by decide

theorem witness_InstructionFrame :
    (Instr.extSecondLoadImmediate 31 0x8000).wellFormed = true
      ∧ exec (.extSecondLoadImmediate 31 0x8000) (start []) = .next ((start []).writeReg 31 0xFFFF8000)
      ∧ ((start []).writeReg 31 0xFFFF8000).readReg 31 ≠ (start []).readReg 31 ∧ (31 : Byte).toNat < numRegs
      ∧ exec .boundary (start []) = .next ((start []).unsupported .boundary) := by
  refine ⟨?_, (isNext_iff _ _).mp ?_, ?_, ?_, rfl⟩ <;> decide +kernel

theorem witness_StepRunsTheDecodedInstruction :
    (start [0x02, 5, 6]).status = .running ∧ decodeInstr (start [0x02, 5, 6]).buf (start [0x02, 5, 6]).pc = .ok (.move 5 6) 3 := by
  decide

theorem witness_StepRecordsADecodeFailure :
    (start [0x0B, 1, 2]).status = .running
      ∧ decodeInstr (start [0x0B, 1, 2]).buf (start [0x0B, 1, 2]).pc = .err (.truncatedInstruction (.real 11) 1 3) := by decide

theorem witness_TerminalStepsAreIdempotent :
    Config.ref.wellFormed = true ∧ (start [1]).halt.status.terminal = true ∧ ((start [1]).fail .endOfProgram).status.terminal = true := by decide

theorem witness_OnlyLoadLeadsBackToRunning :
    Config.ref.wellFormed = true ∧ (start [1]).halt.status.terminal = true ∧ stepAt Config.ref (start [1]).halt = .next (start [1]).halt
      ∧ load Config.ref [0x00] (start [1]).halt = .next (start [0x00]) := by
  refine ⟨by decide, by decide, (isNext_iff _ _).mp ?_, (isNext_iff _ _).mp ?_⟩ <;> decide +kernel

theorem witness_PcNeverDecreasesNorLeavesTheBuffer :
    Config.ref.wellFormed = true ∧ (at_ [7, 9] 0).pc ≤ (at_ [7, 9] 0).buf.length ∧ (at_ [7, 9] 2).pc ≤ (at_ [7, 9] 2).buf.length
      ∧ decode Config.ref (at_ [7, 9] 0).buf 0 = .ok { op := .real 7, args := [.ofByte .u 9] } 2
      ∧ (at_ [7, 9] 0).status = .running := by decide

theorem witness_OnlyLoadImmediateWritesAndNothingReadsARegister :
    Config.ref.wellFormed = true ∧ (start [5, 3, 31, 0, 1]).status = .running
      ∧ (stepState Config.ref (start [5, 3, 31, 0, 1])).readReg 31 ≠ (start [5, 3, 31, 0, 1]).readReg 31
      ∧ decode Config.ref (start [5, 3, 32, 0, 1]).buf 0 = .ok { op := .real 3, args := [.ofByte .u 32, .ofHalf .s 1] } 5
      ∧ (Arg.ofByte .u 32).spec = .u8 ∧ (Arg.ofHalf .s 1).spec = .s16
      ∧ numRegs ≤ ((Arg.ofByte .u 32).byte 0).toNat := by decide +kernel

theorem witness_RunCourseIsIndependentOfTheRegisters : tiny.wellFormed = true ∧ Config.ref.wellFormed = true := by decide

theorem witness_FailuresArePrecise :
    Config.ref.wellFormed = true ∧ (start [3]).status = .running
      ∧ (stepState Config.ref (start [3])).status = .failed (.truncatedInstruction (.real 3) 2 2)
      ∧ decode Config.ref (start [3]).buf (start [3]).pc = .err (.truncatedInstruction (.real 3) 2 2)
      ∧ (stepState Config.ref (start [0x12])).status = .failed (.unsupportedOpcode .outOfRange)
      ∧ decode Config.ref (start [0x12]).buf (start [0x12]).pc = .ok { op := .outOfRange, args := [] } 1 := by decide

theorem witness_EachTerminalStatusHasItsCause :
    Config.ref.wellFormed = true ∧ (start [0]).status = .running ∧ (stepState Config.ref (start [0])).status = .halted
      ∧ (stepState Config.ref (start [4])).status = .failed .endOfProgram
      ∧ (stepState Config.ref (start [3, 64, 5])).status = .failed (.argumentShapeMismatch (.real 3) [.u8, .s8])
      ∧ (stepState Config.ref (start [5, 3, 32, 0, 0])).status = .failed (.registerIndexOutOfRange 32) := by decide

theorem witness_ImmediateNeedsItsPrefixDirectlyBefore :
    Config.ref.wellFormed = true ∧ (start [5, 3, 0, 0, 1]).status = .running
      ∧ decode Config.ref (start [5, 3, 0, 0, 1]).buf 0 = .ok { op := .real 3, args := [.ofByte .u 0, .ofHalf .s 1] } 5
      ∧ decode Config.ref (start [3, 0, 5]).buf 0 = .ok { op := .real 3, args := [.ofByte .u 0, .ofByte .s 5] } 3
      ∧ (start [5, 3, 0, 0, 1]).buf.read 0 = some (Config.ref.toByte (.real Config.ref.ids.extSecond))
      ∧ (start [5, 3, 0, 0, 1]).buf.read 1 = some (Config.ref.toByte (.real Config.ref.ids.loadImmediate)) := by decide

theorem witness_RunningOffTheEndIsAFailure :
    Config.ref.wellFormed = true ∧ (at_ [1] 1).status = .running ∧ (at_ [1] 1).pc = (at_ [1] 1).buf.length
      ∧ (start []).pc = (start []).buf.length ∧ (at_ [1, 6] 1).status = .running ∧ (at_ [1, 6] 1).buf.read 1 = some 6
      ∧ Config.ref.isExt (Config.ref.fromByte 6) = true ∧ (at_ [1, 6] 1).pc + 1 = (at_ [1, 6] 1).buf.length := by decide

theorem witness_TruncatedInstructionIsNeverDispatched :
    Config.ref.wellFormed = true ∧ (start [0x0B, 1]).status = .running
      ∧ decode Config.ref (start [0x0B, 1]).buf (start [0x0B, 1]).pc = .err (.truncatedInstruction (.real 11) 1 3) := by decide

theorem witness_UndispatchedOpcodeIsReported :
    Config.ref.wellFormed = true ∧ (start [7, 0]).status = .running
      ∧ decode Config.ref (start [7, 0]).buf (start [7, 0]).pc = .ok { op := .real 7, args := [.ofByte .u 0] } 2
      ∧ Config.ref.handlerOf (.real 7) = .unsupported
      ∧ decode Config.ref (start [4]).buf (start [4]).pc = .err .endOfProgram
      ∧ stepAt Config.ref (start [4]) = .next ((start [4]).fail .endOfProgram) := by
  refine ⟨by decide, by decide, by decide, by decide, by decide, (isNext_iff _ _).mp (by decide +kernel)⟩

theorem witness_EveryRunEnds :
    Config.ref.wellFormed = true ∧ (start [1, 1]).buf.length - (start [1, 1]).pc + 1 ≤ 3 ∧ ¬ (start [1, 1]).buf.length - (start [1, 1]).pc + 1 ≤ 2 := by decide

theorem witness_ProgramWithoutHaltFails :
    Config.ref.wellFormed = true ∧ (at_ [0, 1] 1).status = .running
      ∧ ∀ a, (at_ [0, 1] 1).pc ≤ a → (at_ [0, 1] 1).buf.read a ≠ some (Config.ref.toByte (.real Config.ref.ids.halt)) := by
  refine ⟨by decide, rfl, fun a h => ?_⟩
  obtain rfl | h2 : a = 1 ∨ 2 ≤ a := by have : 1 ≤ a := h
                                        omega
  · decide
  · have hn : (at_ [0, 1] 1).buf.read a = none := if_neg (by show ¬ a < 2; omega)
    rw [hn]; exact fun h => nomatch h

theorem witness_EmptyProgramEndsAtOnce : tiny.wellFormed = true ∧ Config.ref.wellFormed = true := by decide

theorem witness_LiLoadsItsRegister :
    Config.ref.wellFormed = true ∧ (at_ ([1] ++ liBytes Config.ref 31 (-32768) ++ [0]) 1).status = .running
      ∧ (at_ ([1] ++ liBytes Config.ref 31 (-32768) ++ [0]) 1).buf = Memory.ofBytes ([1] ++ liBytes Config.ref 31 (-32768) ++ [0])
      ∧ (at_ ([1] ++ liBytes Config.ref 31 (-32768) ++ [0]) 1).pc = [(1 : Byte)].length ∧ (-32768 : Int) ≤ -32768
      ∧ (32767 : Int) ≤ 32767 ∧ (31 : Byte).toNat < numRegs ∧ numRegs ≤ (32 : Byte).toNat :=
  ⟨by decide, rfl, rfl, rfl, by decide, by decide, by decide, by decide⟩

theorem witness_StepKeepsTheInvariant :
    tiny.wellFormed = true ∧ Memory.empty.wf = true ∧ State.reset.Inv Config.ref
      ∧ step State.reset = .next (State.reset.fail .endOfProgram)
      ∧ stepAt Config.ref State.reset = .next (State.reset.fail .endOfProgram) := by
  refine ⟨by decide, rfl, ⟨rfl, by decide, by decide, trivial⟩, rfl, (isNext_iff _ _).mp (by decide +kernel)⟩

theorem witness_InvariantHoldsAfterLoad : load tiny [0x07] State.reset = .next (State.loaded tiny [0x07]) :=
  (isNext_iff _ _).mp (by decide +kernel)

theorem witness_StatusFieldsCarryTheStatus :
    Config.ref.wellFormed = true ∧ StatusLegal Config.ref (.failed (.registerIndexOutOfRange 32))
      ∧ statusFields Config.ref (.failed (.registerIndexOutOfRange 32))
          = statusFields Config.ref (.failed (.registerIndexOutOfRange 32))
      ∧ StatusLegal Config.ref (.failed (.truncatedInstruction (.real 17) 3 5)) :=
  ⟨by decide, (by decide : numRegs ≤ (32 : Byte).toNat), rfl, by decide, .both, by decide, by decide⟩

theorem witness_TraceTellsWhatTheStepDoes :
    Config.ref.wellFormed = true ∧ traceEvent Config.ref (start [0x00]) = some { pcBefore := 0, outcome := .decoded { op := .real 0, args := [] } 1 .halted }
      ∧ traceEvent Config.ref (start [0x04]) = some { pcBefore := 0, outcome := .decodeFailed .endOfProgram }
      ∧ traceEvent Config.ref (start [0x04]).halt = none := by decide

end Sys2Proof.Tests
end

section
/-! Proofs about the course of the architectural state (10_state R22, R25, R27): how a step moves `pc`, which register it
writes and what it does not read, and what a terminal status keeps. -/

namespace Sys2Proof.Machine

/-! ### Leaving Running (10_state R27) -/

theorem Status.ne_running_of_terminal {st : Status} (h : st.terminal = true) : st ≠ .running := by
  rintro rfl
  cases h

/-- Settles O40: a terminal state is its own successor, so neither a run nor a step leaves it, and every admitted load
starts in Running. -/
theorem onlyLoadLeadsBackToRunning : Obligations.OnlyLoadLeadsBackToRunning := by
  intro c s hc
  refine ⟨fun ht n => ?_, fun ht t hstep => ?_, fun bytes t hload => ?_⟩
  · rw [runFor_terminal c n s ht]
    exact ⟨rfl, Status.ne_running_of_terminal ht⟩
  · rw [stepAt_of_wellFormed hc, stepState_terminal ht] at hstep
    cases hstep
    exact ⟨rfl, Status.ne_running_of_terminal ht⟩
  · obtain ⟨-, -, rfl⟩ := load_eq_next hload
    rfl

/-! ### The program counter (10_state R25) -/

/-- A dispatch does not write `pc`, so a step whose decode succeeds leaves it where the decode ended. -/
theorem stepState_pc_of_decode_ok {c : Config} {s : State} {ins : Decoded} {next : Nat} (hr : s.status = .running)
    (hd : decode c s.buf s.pc = .ok ins next) : (stepState c s).pc = next := by
  rw [stepState_ok hr hd, dispatch_pc, State.setPc_pc]

/-- A step leaves `pc` alone, or moves it forward to an offset of at most `L`. -/
theorem stepState_pc_cases (c : Config) (s : State) :
    (stepState c s).pc = s.pc ∨ (s.pc < (stepState c s).pc ∧ (stepState c s).pc ≤ s.buf.length) := by
  rcases stepState_cases c s with ⟨-, h⟩ | ⟨r, -, -, h⟩ | ⟨ins, next, hr, hd, -⟩
  · exact .inl (by rw [h])
  · exact .inl (by rw [h, State.fail_pc])
  · rw [stepState_pc_of_decode_ok hr hd]
    exact .inr (decode_bounds hd)

/-- From `pc` at most `L`, a step keeps `pc` between where it was and `L`. -/
theorem stepState_pc_bounds (c : Config) {s : State} (h : s.pc ≤ s.buf.length) :
    s.pc ≤ (stepState c s).pc ∧ (stepState c s).pc ≤ s.buf.length := by
  have := stepState_pc_cases c s
  omega

/-- From `pc` at most `L`, a run keeps `pc` between where it was and `L`. -/
theorem runFor_pc_bounds (c : Config) (n : Nat) {s : State} (h : s.pc ≤ s.buf.length) :
    s.pc ≤ (runFor c n s).pc ∧ (runFor c n s).pc ≤ s.buf.length := by
  induction n generalizing s with
  | zero => exact ⟨Nat.le_refl _, h⟩
  | succ n ih =>
    obtain ⟨hge, hle⟩ := stepState_pc_bounds c h
    obtain ⟨hge', hle'⟩ := ih (s := stepState c s) (by rwa [stepState_buf])
    rw [stepState_buf] at hle'
    rw [runFor_succ]
    exact ⟨hge.trans hge', hle'⟩

/-- Settles O41: by induction over the run from the bounds of one step, which are those of a decode. -/
theorem pcNeverDecreasesNorLeavesTheBuffer : Obligations.PcNeverDecreasesNorLeavesTheBuffer := by
  intro c s _ hpc
  refine ⟨fun n => runFor_pc_bounds c n hpc, stepState_pc_bounds c hpc, fun ins next hd => ?_⟩
  obtain ⟨hlt, hle⟩ := decode_bounds hd
  exact ⟨by omega, hlt, by omega, fun hr => stepState_pc_of_decode_ok hr hd⟩

/-! ### The registers (10_state R22) -/

/-- A dispatch that changes a register ran LOAD_IMMEDIATE of shape (U8, S16), and its first argument names the register:
of the ends of a dispatch only the accepted immediate load writes one. -/
theorem dispatch_changes_readReg {c : Config} {ins : Decoded} {s : State} {r : Fin numRegs}
    (h : (dispatch c ins s).readReg r ≠ s.readReg r) :
    ∃ a1 a2, ins = { op := .real c.ids.loadImmediate, args := [a1, a2] } ∧ a1.spec = .u8 ∧ a2.spec = .s16 ∧
      (a1.byte 0).toNat = r.val := by
  obtain ⟨op, args⟩ := ins
  rcases dispatch_cases c ⟨op, args⟩ s with ⟨-, hd⟩ | ⟨-, hd⟩ | ⟨a1, a2, -, hop, hargs, h1, h2, -, hd⟩ |
    ⟨a1, a2, -, -, -, -, -, -, hd⟩ | ⟨-, -, -, hd⟩ | ⟨-, hd⟩ <;> rw [hd] at h
  · exact absurd rfl h
  · exact absurd rfl h
  · cases hop
    cases hargs
    refine ⟨a1, a2, rfl, h1, h2, ?_⟩
    by_contra hne
    exact h (State.readReg_writeReg_other s _ r _ hne)
  · exact absurd rfl h
  · exact absurd rfl h
  · exact absurd rfl h

/-- A step that changes a register decoded a LOAD_IMMEDIATE of shape (U8, S16) that names it. -/
theorem stepState_changes_readReg {c : Config} {s : State} {r : Fin numRegs}
    (h : (stepState c s).readReg r ≠ s.readReg r) :
    s.status = .running ∧ ∃ a1 a2 next,
      decode c s.buf s.pc = .ok { op := .real c.ids.loadImmediate, args := [a1, a2] } next ∧
      a1.spec = .u8 ∧ a2.spec = .s16 ∧ (a1.byte 0).toNat = r.val := by
  rcases stepState_cases c s with ⟨-, hs⟩ | ⟨_, -, -, hs⟩ | ⟨ins, next, hr, hd, hs⟩ <;> rw [hs] at h
  · exact absurd rfl h
  · exact absurd rfl h
  · obtain ⟨a1, a2, rfl, hspecs⟩ := dispatch_changes_readReg (s := s.setPc next) h
    exact ⟨hr, a1, a2, next, hd, hspecs⟩

/-- A step does not look at the registers: with others it takes the same course and writes the same register. -/
theorem stepState_withRegs (c : Config) (s : State) (y : Vector Word numRegs) :
    (stepState c { s with x := y }).status = (stepState c s).status ∧
    (stepState c { s with x := y }).pc = (stepState c s).pc ∧
    ∀ r : Fin numRegs, (stepState c { s with x := y }).readReg r = (stepState c s).readReg r ∨
      ((stepState c s).readReg r = s.readReg r ∧ (stepState c { s with x := y }).readReg r = y[r]) := by
  rcases stepState_cases c s with ⟨ht, h⟩ | ⟨r, hr, hd, h⟩ | ⟨ins, next, hr, hd, h⟩
  · rw [h, stepState_terminal (s := { s with x := y }) ht]
    exact ⟨rfl, rfl, fun _ => .inr ⟨rfl, rfl⟩⟩
  · rw [h, stepState_err (s := { s with x := y }) hr hd]
    exact ⟨rfl, rfl, fun _ => .inr ⟨rfl, rfl⟩⟩
  · rw [h, stepState_ok (s := { s with x := y }) hr hd]
    obtain ⟨hstatus, hregs⟩ := dispatch_withRegs c ins (s.setPc next) y
    exact ⟨hstatus, by simp only [dispatch_pc, State.setPc_pc], hregs⟩

/-- A step on a LOAD_IMMEDIATE of shape (U8, S16) is the register load past the instruction (42_dispatch R177). -/
theorem stepState_loadImmediate {c : Config} {s : State} {a1 a2 : Arg} {next : Nat} (hc : c.wellFormed = true)
    (hr : s.status = .running)
    (hd : decode c s.buf s.pc = .ok { op := .real c.ids.loadImmediate, args := [a1, a2] } next)
    (h1 : a1.spec = .u8) (h2 : a2.spec = .s16) :
    stepState c s = (s.setPc next).loadReg (a1.byte 0).toNat (sval 16 a2.pair) := by
  obtain ⟨-, -, -, hli, -⟩ := Config.handlerOf_named hc
  rw [stepState_ok hr hd, ← State.loadImmediate_of_spec (op := .real c.ids.loadImmediate) h1 h2]
  simp only [dispatch, hli]

/-- Settles O42: the writer is read off the ends of a dispatch, the two runs take the same case of the step, and an
index of 32 or more takes the failing branch of the register load. -/
theorem onlyLoadImmediateWritesAndNothingReadsARegister :
    Obligations.OnlyLoadImmediateWritesAndNothingReadsARegister := by
  intro c s hc
  refine ⟨fun r h => stepState_changes_readReg h, fun y => ?_, fun a1 a2 next hr hd h1 h2 hn => ?_, fun r => rfl⟩
  · obtain ⟨hstatus, hpc, hregs⟩ := stepState_withRegs c s y
    exact ⟨hstatus, hpc, by rw [stepState_buf, stepState_buf], hregs⟩
  · rw [stepState_loadImmediate hc hr hd h1 h2, State.loadReg_of_ge hn]
    exact ⟨⟨_, rfl⟩, rfl⟩

end Sys2Proof.Machine
end

section
/-! Proofs about the program buffer (20_memory R40). The step of REF is the step under REF's configuration, so its frame is
that of `stepState`. -/

namespace Sys2Proof.Machine

/-! ### The step of REF is the step under REF's configuration -/

/-- Forgetting the typed form of a decoded instruction gives the spec's decode in REF. -/
theorem decodeInstr_map_resolved (m : Memory) (pc : Nat) :
    (decodeInstr m pc).map Instr.resolved = decode Config.ref m pc := by
  unfold decodeInstr decode
  cases hd : decodeWithExt Config.ref m pc with
  | err r => rfl
  | ok p next =>
    obtain ⟨hresolved, -⟩ := partsKept_of_partsOk p.1 p.2 (partsOk_of_decode hd)
    simp only [DecodeResult.map, hresolved]

/-- The step of REF is the state transition under REF's configuration: both decode the same instruction, and `exec` is the
dispatch of it. -/
theorem step_eq_stepState (s : State) : step s = .next (stepState Config.ref s) := by
  unfold step stepState
  cases s.status with
  | halted => rfl
  | failed r => rfl
  | running =>
    rw [← decodeInstr_map_resolved]
    cases decodeInstr s.buf s.pc with
    | err r => rfl
    | ok i next => exact exec_eq_dispatch i (s.setPc next)

/-! ### What leaves the buffer as it is, and what replaces it (20_memory R40) -/

@[simp] theorem runFor_buf (c : Config) (n : Nat) (s : State) : (runFor c n s).buf = s.buf :=
  runFor_induction (P := fun t => t.buf = s.buf) (fun t ht => (stepState_buf c t).trans ht) n s rfl

@[simp] theorem runState_buf (c : Config) (s : State) : (runState c s).buf = s.buf := runFor_buf c _ s

theorem step_buf {s t : State} (h : step s = .next t) : t.buf = s.buf := by
  rw [step_eq_stepState] at h
  cases h
  exact stepState_buf Config.ref s

/-- An admitted load fits the program limit and leaves the buffer of exactly its bytes. -/
theorem load_buf {c : Config} {bytes : List Byte} {s t : State} (h : load c bytes s = .next t) :
    bytes.length ≤ c.maxProgLen ∧ t.buf = Memory.ofBytes bytes := by
  obtain ⟨-, hlen, rfl⟩ := load_eq_next h
  exact ⟨hlen, rfl⟩

/-- Settles O6: the frames of a step and of a run, the range of a read, and the buffer of an admitted load. -/
theorem onlyLoadWritesTheBuffer : Obligations.OnlyLoadWritesTheBuffer := by
  intro c s _
  refine ⟨stepState_buf c s, runState_buf c s, fun t => step_buf, fun a => Memory.read_isSome, fun bytes t hload => ?_⟩
  obtain ⟨hlen, hbuf⟩ := load_buf hload
  rw [hbuf]
  exact ⟨hlen, Memory.length_ofBytes bytes, Memory.read_ofBytes bytes⟩

end Sys2Proof.Machine
end

section
/-! Proofs about the opcode table: `fromByte` (40_opcode_table R101) and the shape descriptors (R104). -/

namespace Sys2Proof

open Machine (Memory)

/-! ### BOUNDARY is never fetched (40_opcode_table R101) -/

theorem Opcode.ne_boundary_of_fetchable {c : Config} {op : Opcode} (h : c.fetchable op = true) : op ≠ .boundary := by
  rintro rfl
  cases h

theorem decode_ok_op_ne_boundary {c : Config} {m : Memory} {pc next : Nat} {ins : Decoded}
    (h : decode c m pc = .ok ins next) : ins.op ≠ .boundary := by
  obtain ⟨_, _, _, hhead, -, -, rfl⟩ := decode_eq_ok.mp h
  obtain ⟨-, -, -, hfetch, -⟩ := decodeHead_bounds hhead
  exact Opcode.ne_boundary_of_fetchable hfetch

theorem decode_truncated_op_ne_boundary {c : Config} {m : Memory} {pc argc need : Nat} {op : Opcode}
    (h : decode c m pc = .err (.truncatedInstruction op argc need)) : op ≠ .boundary := by
  rcases decode_eq_err.mp h with ⟨-, hr⟩ | ⟨_, _, _, hhead, -, hr⟩
  · cases hr
  · cases hr
    obtain ⟨-, -, -, hfetch, -⟩ := decodeHead_bounds hhead
    exact Opcode.ne_boundary_of_fetchable hfetch

/-! ### Shape descriptors (40_opcode_table R104) -/

theorem ShapeDesc.consistent_iff (d : ShapeDesc) :
    d.consistent = true ↔
      ((d.w1 ≠ none ↔ 1 ≤ d.argc.val) ∧ (d.w2 ≠ none ↔ 2 ≤ d.argc.val) ∧ (d.w3 ≠ none ↔ 3 ≤ d.argc.val)) := by
  have hfield : ∀ (w : Option Width) (k : Nat),
      (w.isSome == decide (k ≤ d.argc.val)) = true ↔ (w ≠ none ↔ k ≤ d.argc.val) := by
    intro w k
    rw [beq_iff_eq, Bool.eq_iff_iff, decide_eq_true_eq, Option.isSome_iff_ne_none]
  simp only [ShapeDesc.consistent, Bool.and_eq_true, hfield, and_assoc]

/-- The list a consistent descriptor stands for, by its number of arguments. -/
theorem ShapeDesc.toShape_of_consistent {d : ShapeDesc} (h : d.consistent = true) :
    (d.argc.val = 0 ∧ d.toShape = []) ∨
    (∃ w1, d.argc.val = 1 ∧ d.w1 = some w1 ∧ d.toShape = [⟨w1, d.s1⟩]) ∨
    (∃ w1 w2, d.argc.val = 2 ∧ d.w1 = some w1 ∧ d.w2 = some w2 ∧ d.toShape = [⟨w1, d.s1⟩, ⟨w2, d.s2⟩]) ∨
    ∃ w1 w2 w3, d.argc.val = 3 ∧ d.w1 = some w1 ∧ d.w2 = some w2 ∧ d.w3 = some w3 ∧
      d.toShape = [⟨w1, d.s1⟩, ⟨w2, d.s2⟩, ⟨w3, d.s3⟩] := by
  obtain ⟨h1, h2, h3⟩ := (ShapeDesc.consistent_iff d).mp h
  simp only [Option.ne_none_iff_exists'] at h1 h2 h3
  obtain h0 | ha | ha | ha : d.argc.val = 0 ∨ d.argc.val = 1 ∨ d.argc.val = 2 ∨ d.argc.val = 3 := by omega
  · exact .inl ⟨h0, by simp [ShapeDesc.toShape, h0]⟩
  · obtain ⟨w1, hw1⟩ := h1.mpr (by omega)
    exact .inr (.inl ⟨w1, ha, hw1, by simp [ShapeDesc.toShape, ShapeDesc.entry, ha, hw1]⟩)
  · obtain ⟨w1, hw1⟩ := h1.mpr (by omega)
    obtain ⟨w2, hw2⟩ := h2.mpr (by omega)
    exact .inr (.inr (.inl ⟨w1, w2, ha, hw1, hw2, by simp [ShapeDesc.toShape, ShapeDesc.entry, ha, hw1, hw2]⟩))
  · obtain ⟨w1, hw1⟩ := h1.mpr (by omega)
    obtain ⟨w2, hw2⟩ := h2.mpr (by omega)
    obtain ⟨w3, hw3⟩ := h3.mpr (by omega)
    exact .inr (.inr (.inr ⟨w1, w2, w3, ha, hw1, hw2, hw3,
      by simp [ShapeDesc.toShape, ShapeDesc.entry, ha, hw1, hw2, hw3]⟩))

/-- The entries of the list carry the descriptor's fields of the same position. -/
theorem ShapeDesc.toShape_fields {d : ShapeDesc} (h : d.consistent = true) :
    d.toShape.length = d.argc.val ∧
    (∀ sp, d.toShape[0]? = some sp → d.w1 = some sp.w ∧ d.s1 = sp.s) ∧
    (∀ sp, d.toShape[1]? = some sp → d.w2 = some sp.w ∧ d.s2 = sp.s) ∧
    (∀ sp, d.toShape[2]? = some sp → d.w3 = some sp.w ∧ d.s3 = sp.s) := by
  rcases ShapeDesc.toShape_of_consistent h with ⟨ha, hs⟩ | ⟨w1, ha, hw1, hs⟩ | ⟨w1, w2, ha, hw1, hw2, hs⟩ |
    ⟨w1, w2, w3, ha, hw1, hw2, hw3, hs⟩
  · simp [hs, ha]
  · simp [hs, ha, hw1]
  · simp [hs, ha, hw1, hw2]
  · simp [hs, ha, hw1, hw2, hw3]

/-- The list depends on the first `argc` entries only. -/
theorem ShapeDesc.toShape_congr {d d' : ShapeDesc} (ha : d'.argc = d.argc)
    (h1 : 1 ≤ d.argc.val → entry d'.w1 d'.s1 = entry d.w1 d.s1)
    (h2 : 2 ≤ d.argc.val → entry d'.w2 d'.s2 = entry d.w2 d.s2)
    (h3 : 3 ≤ d.argc.val → entry d'.w3 d'.s3 = entry d.w3 d.s3) : d'.toShape = d.toShape := by
  obtain h0 | hk | hk | hk : d.argc.val = 0 ∨ d.argc.val = 1 ∨ d.argc.val = 2 ∨ d.argc.val = 3 := by omega
  · simp [toShape, ha, h0]
  · simp [toShape, ha, hk, h1 (by omega)]
  · simp [toShape, ha, hk, h1 (by omega), h2 (by omega)]
  · simp [toShape, ha, hk, h1 (by omega), h2 (by omega), h3 (by omega)]

/-- One inconsistent descriptor makes the configuration ill-formed (40_opcode_table R109). -/
theorem Config.illFormed_of_inconsistent {c : Config} {d : ShapeDesc} (hd : d ∈ c.shapeTable)
    (h : d.consistent = false) : c.wellFormed = false := by
  cases hc : c.wellFormed with
  | false => rfl
  | true => exact absurd (Config.consistent_of_mem hc hd) (by simp [h])

end Sys2Proof

namespace Sys2Proof.Machine

/-- Settles O8: the bounds check of `fromByte`, and the head of a decode, which fetches every opcode by it. -/
theorem fromByteIsATotalBoundsCheck : Obligations.FromByteIsATotalBoundsCheck := by
  refine ⟨fun c b hc => ?_, fun c m pc _ => ⟨fun ins next => decode_ok_op_ne_boundary,
    fun op argc need => decode_truncated_op_ne_boundary, ?_⟩, by decide, by decide, by decide⟩
  · obtain ⟨hlo, hhi⟩ := Config.K_bounds hc
    have hbound : c.K ≤ (BitVec.ofNat 8 c.K).toNat := by rw [BitVec.toNat_ofNat]; omega
    have hmax : c.K ≤ (255 : Byte).toNat := by show c.K ≤ 255; omega
    exact ⟨Config.fromByte_of_lt, Config.fromByte_of_ge,
      Opcode.ne_boundary_of_fetchable (Config.fetchable_fromByte c b), Config.fromByte_of_ge hmax,
      Config.fromByte_of_ge hbound, Config.fromByte_toByte_real hc (by omega)⟩
  · rintro s rfl rfl
    rcases stepState_cases c s with ⟨-, hs⟩ | ⟨r, -, -, hs⟩ | ⟨ins, next, -, hd, hs⟩
    · exact .inl hs
    · exact .inr (.inl ⟨r, hs⟩)
    · exact .inr (.inr ⟨ins, next, decode_ok_op_ne_boundary hd, hs⟩)

/-- Settles O10: the width fields one by one, the list by the number of arguments, and the refusal of an ill-formed
configuration. -/
theorem consistentDescriptorIsItsShape : Obligations.ConsistentDescriptorIsItsShape := by
  refine ⟨fun d => ⟨ShapeDesc.consistent_iff d, fun h => ?_⟩, fun c d s hd h => ?_⟩
  · obtain ⟨hlen, hfirst, hsecond, hthird⟩ := ShapeDesc.toShape_fields h
    refine ⟨hlen, hfirst, hsecond, hthird, fun ha sg => ?_, fun ha sg => ?_, fun ha sg => ?_⟩
    · exact ShapeDesc.toShape_congr rfl (fun _ => rfl) (fun _ => rfl) (fun h3 => by omega)
    · exact ShapeDesc.toShape_congr rfl (fun _ => rfl) (fun h2 => by omega) (fun h3 => by omega)
    · exact ShapeDesc.toShape_congr rfl (fun h1 => by omega) (fun h2 => by omega) (fun h3 => by omega)
  · exact stepAt_of_illFormed (Config.illFormed_of_inconsistent hd h) s

end Sys2Proof.Machine
end

section
/-! Proofs about the decoder: what EXT_FIRST, EXT_SECOND and EXT_BOTH do to the instruction after them (41_decoder R132 to
R134), and that no byte's value fails a decode (R140). -/

namespace Sys2Proof

open Machine (Memory)

/-! ### What the latch widens (41_decoder R135) -/

/-- Whether a latch widens the argument at position `k`, counted from 0. -/
def Ext.hits (e : Ext) : Nat → Bool
  | 0 => e.hitsFirst
  | 1 => e.hitsSecond
  | _ => false

theorem Ext.hits_iff {e : Ext} (he : e ≠ .none) (k : Nat) :
    e.hits k = true ↔ (k = 0 ∧ e ≠ .second) ∨ (k = 1 ∧ e ≠ .first) := by
  match k with
  | 0 => cases e <;> simp_all [Ext.hits, Ext.hitsFirst]
  | 1 => cases e <;> simp_all [Ext.hits, Ext.hitsSecond]
  | k + 2 => simp [Ext.hits]

theorem ArgSpec.widen_false_eq_id : ArgSpec.widen false = id := funext ArgSpec.widen_false

theorem ArgSpec.widen_eq (hit : Bool) (a : ArgSpec) :
    a.widen hit = { w := if a.w = .w8 ∧ hit = true then .w16 else a.w, s := a.s } := by
  simp only [ArgSpec.widen, and_comm]
  split <;> rfl

/-- The argument at each position of a resolved shape is the base argument there, widened where the latch applies. -/
theorem Shape.getElem?_widen (sh : Shape) (e : Ext) (k : Nat) :
    (Shape.widen sh e)[k]? = sh[k]?.map (ArgSpec.widen (e.hits k)) := by
  match sh, k with
  | [], _ => simp
  | [_], 0 => rfl
  | [_], k + 1 => rfl
  | _ :: _ :: _, 0 => rfl
  | _ :: _ :: _, 1 => rfl
  | _ :: _ :: rest, k + 2 => simp [Shape.widen, Ext.hits, ArgSpec.widen_false_eq_id]

/-! ### The prefixes' bytes (41_decoder R131) -/

/-- Each of the three bytes sets its latch. -/
theorem Config.extOf_fromByte_toByte {c : Config} (hc : c.wellFormed = true) :
    c.extOf (c.fromByte (c.toByte (.real c.ids.extFirst))) = .first ∧
    c.extOf (c.fromByte (c.toByte (.real c.ids.extSecond))) = .second ∧
    c.extOf (c.fromByte (c.toByte (.real c.ids.extBoth))) = .both := by
  obtain ⟨-, -, -, -, hfirst, hsecond, hboth⟩ := Config.ids_lt hc
  rw [Config.fromByte_toByte_real hc hfirst, Config.fromByte_toByte_real hc hsecond,
    Config.fromByte_toByte_real hc hboth]
  exact Config.extOf_named hc

theorem Config.isExt_of_extOf {c : Config} {op : Opcode} (h : c.extOf op ≠ .none) : c.isExt op = true := by
  simpa [Config.isExt] using h

/-! ### A decode from its head -/

/-- Where the arguments of the resolved shape fit the buffer, the decode takes them. -/
theorem decode_of_fits {c : Config} {m : Memory} {pc a : Nat} {e : Ext} {op : Opcode}
    (hhead : decodeHead c m pc = some (e, op, a)) (hfit : a + Shape.need (Shape.widen (c.shapeOf op) e) ≤ m.length) :
    decode c m pc = .ok { op := op, args := takeArgs m a (Shape.widen (c.shapeOf op) e) }
      (a + Shape.need (Shape.widen (c.shapeOf op) e)) :=
  decode_eq_ok.mpr ⟨e, op, a, hhead, hfit, rfl, rfl⟩

/-- Where they run past the buffer, the decode is a truncation (41_decoder R138). -/
theorem decode_of_not_fits {c : Config} {m : Memory} {pc a : Nat} {e : Ext} {op : Opcode}
    (hhead : decodeHead c m pc = some (e, op, a)) (hlong : m.length < a + Shape.need (Shape.widen (c.shapeOf op) e)) :
    decode c m pc = .err (.truncatedInstruction op (Shape.widen (c.shapeOf op) e).length
      (Shape.need (Shape.widen (c.shapeOf op) e))) :=
  decode_eq_err.mpr (.inr ⟨e, op, a, hhead, hlong, rfl⟩)

/-- An EXT byte that is the last byte ends the program (41_decoder R139). -/
theorem decode_prefix_at_end {c : Config} {m : Memory} {pc : Nat} {b : Byte} (hb : m.read pc = some b)
    (hx : c.isExt (c.fromByte b) = true) (hend : m.read (pc + 1) = none) : decode c m pc = .err .endOfProgram :=
  decode_eq_err.mpr (.inl ⟨decodeHead_eq_none.mpr (.inr ⟨b, hb, hx, Memory.read_eq_none.mp hend⟩), rfl⟩)

/-- An unprefixed opcode whose arguments fit decodes by its base shape. -/
theorem decode_plain_of_fits {c : Config} {m : Memory} {pc : Nat} {b : Byte} (hb : m.read pc = some b)
    (hx : c.isExt (c.fromByte b) = false) (hfit : pc + 1 + Shape.need (c.shapeOf (c.fromByte b)) ≤ m.length) :
    decode c m pc = .ok { op := c.fromByte b, args := takeArgs m (pc + 1) (c.shapeOf (c.fromByte b)) }
      (pc + 1 + Shape.need (c.shapeOf (c.fromByte b))) := by
  have h := decode_of_fits (decodeHead_plain hb hx)
  rw [Shape.widen_none] at h
  exact h hfit

/-- A byte from `K` on is OUT_OF_RANGE, one byte long and without arguments. -/
theorem decode_outOfRange {c : Config} {m : Memory} {pc : Nat} {b : Byte} (hb : m.read pc = some b)
    (hK : c.K ≤ b.toNat) : decode c m pc = .ok { op := .outOfRange, args := [] } (pc + 1) := by
  have h := decode_plain_of_fits (c := c) hb
  rw [Config.fromByte_of_ge hK] at h
  exact h (Config.isExt_outOfRange c) (Memory.lt_of_read hb)

/-- A decode fails only where bytes are missing. -/
theorem decode_err_needs_bytes {c : Config} {m : Memory} {pc : Nat} {r : Reason} (h : decode c m pc = .err r) :
    (r = .endOfProgram ∧ m.length ≤ pc + 1) ∨
      ∃ op argc need, r = .truncatedInstruction op argc need ∧ m.length < pc + 2 + need := by
  rcases decode_eq_err.mp h with ⟨hnone, rfl⟩ | ⟨e, op, a, hhead, hlong, rfl⟩
  · rcases decodeHead_eq_none.mp hnone with hend | ⟨_, -, -, hend⟩
    · exact .inl ⟨rfl, by omega⟩
    · exact .inl ⟨rfl, hend⟩
  · obtain ⟨-, ha, -⟩ := decodeHead_bounds hhead
    exact .inr ⟨_, _, _, rfl, by omega⟩

end Sys2Proof

namespace Sys2Proof.Machine

/-- An opcode without a handler fails with UnsupportedOpcode (42_dispatch R178). -/
theorem dispatch_of_unsupported {c : Config} {ins : Decoded} (h : c.handlerOf ins.op = .unsupported) (s : State) :
    dispatch c ins s = s.unsupported ins.op := by
  simp only [dispatch, h]

/-- Settles O14: the EXT byte sets its latch, so the head of the decode stands two bytes on with the opcode of the next
byte, and the rest is the resolved shape against the end of the buffer. -/
theorem prefixWidensTheNextInstruction : Obligations.PrefixWidensTheNextInstruction := by
  refine ⟨fun c e m pc b1 hc hprefix hb1 => ?_, by decide, by decide, by decide⟩
  obtain ⟨he, hext⟩ : e ≠ .none ∧ c.extOf (c.fromByte b1) = e := by
    obtain ⟨hfirst, hsecond, hboth⟩ := Config.extOf_fromByte_toByte hc
    rcases hprefix with ⟨rfl, rfl⟩ | ⟨rfl, rfl⟩ | ⟨rfl, rfl⟩
    · exact ⟨by decide, hfirst⟩
    · exact ⟨by decide, hsecond⟩
    · exact ⟨by decide, hboth⟩
  have hx : c.isExt (c.fromByte b1) = true := Config.isExt_of_extOf (hext ▸ he)
  refine ⟨(Config.isExt_shape_handler hc hx).1, decode_prefix_at_end hb1 hx, fun b2 hb2 => ?_⟩
  have hhead := decodeHead_prefixed hb1 hx hb2
  rw [hext] at hhead
  refine ⟨fun hlong => ⟨_, _, _, decode_of_not_fits hhead hlong⟩,
    fun hfit => ⟨_, decode_of_fits hhead hfit, takeArgs_spec _ _ _⟩, Shape.length_widen _ _, fun k sp hsp => ?_⟩
  simp only [Shape.getElem?_widen, hsp, Option.map_some, ArgSpec.widen_eq, Ext.hits_iff he]

/-- Settles O19: each failure of a decode names the missing bytes, and an opcode the configuration does not know reaches
dispatch, which has no handler for it. -/
theorem noByteValueFailsDecoding : Obligations.NoByteValueFailsDecoding := by
  intro c m pc _
  refine ⟨fun r => decode_err_needs_bytes, fun b hb hK => ⟨decode_outOfRange hb hK, ?_⟩,
    fun b hb hx hfit => ⟨_, decode_plain_of_fits hb hx hfit, takeArgs_spec _ _ _⟩⟩
  rintro s rfl rfl hr
  rw [stepState_ok hr (decode_outOfRange hb hK), dispatch_of_unsupported (Config.handlerOf_outOfRange c)]
  exact ⟨_, rfl⟩

end Sys2Proof.Machine
end

section
/-! Proofs about the Execution Loop: what a terminal status stops (42_dispatch R173), and what a program leaves, whatever state
it is loaded over (R180). -/

namespace Sys2Proof.Machine

/-! ### A terminal status stops everything (42_dispatch R173) -/

/-- A run is a number of steps, so it leaves a terminal state as it is. -/
theorem runState_terminal (c : Config) {s : State} (h : s.status.terminal = true) : runState c s = s :=
  runFor_terminal c _ s h

theorem step_terminal {s : State} (h : s.status.terminal = true) : step s = .next s := by
  rw [step_eq_stepState, stepState_terminal h]

/-- Settles O39: a terminal state is its own successor and its own run, and a well-formed configuration admits both. -/
theorem terminalStepsAreIdempotent : Obligations.TerminalStepsAreIdempotent := by
  intro c s hc ht
  have hrun : runState c s = s := runState_terminal c ht
  refine ⟨?_, ?_, ?_, step_terminal ht⟩
  · rw [stepAt_of_wellFormed hc, stepState_terminal ht]
  · rw [runAt_of_wellFormed hc, hrun]
  · rw [runToEnd_of_wellFormed hc, hrun]

/-! ### A load leaves no trace of the state before it (42_dispatch R180) -/

theorem load_next_unique {c : Config} {bytes : List Byte} {s1 s2 t1 t2 : State} (h1 : load c bytes s1 = .next t1)
    (h2 : load c bytes s2 = .next t2) : t1 = t2 := by
  obtain ⟨-, -, rfl⟩ := load_eq_next h1
  obtain ⟨-, -, rfl⟩ := load_eq_next h2
  rfl

/-- Settles O5: the two loads leave one state, and a run is a function of the configuration and the state it starts from. -/
theorem finalStateIsAFunctionOfTheProgram : Obligations.FinalStateIsAFunctionOfTheProgram := by
  intro c bytes s1 s2 t1 t2 h1 h2
  obtain rfl : t1 = t2 := load_next_unique h1 h2
  exact ⟨rfl, rfl, rfl, fun _ => rfl⟩

end Sys2Proof.Machine
end

section
/-! Proofs about the failures of the status register (60_exceptions): running off the end (R213), an opcode without a handler
(R215) and a register index of 32 or more (R216). -/

namespace Sys2Proof

open Machine (Memory)

/-! ### What a decode fails with (60_exceptions R213, R215) -/

theorem decode_at_end {c : Config} {m : Memory} {pc : Nat} (h : m.length ≤ pc) :
    decode c m pc = .err .endOfProgram :=
  decode_eq_err.mpr (.inl ⟨decodeHead_eq_none.mpr (.inl h), rfl⟩)

theorem decode_err_ne_unsupportedOpcode {c : Config} {m : Memory} {pc : Nat} {r : Reason} (h : decode c m pc = .err r)
    (op : Opcode) : r ≠ .unsupportedOpcode op := by
  rintro rfl
  rcases decode_err_needs_bytes h with ⟨hr, -⟩ | ⟨_, _, _, hr, -⟩
  · cases hr
  · cases hr

end Sys2Proof

namespace Sys2Proof.Machine

/-- A run ends in the state its first step leaves, where that state is terminal. -/
theorem runState_of_stepState_terminal {c : Config} {s : State} (h : (stepState c s).status.terminal = true) :
    runState c s = stepState c s := by
  unfold runState
  rw [runFor_succ, runFor_terminal c _ _ h]

/-- A run whose first decode fails ends with that failure. -/
theorem runState_err {c : Config} {s : State} {r : Reason} (hr : s.status = .running)
    (hd : decode c s.buf s.pc = .err r) : runState c s = s.fail r := by
  have hs : stepState c s = s.fail r := stepState_err hr hd
  rw [runState_of_stepState_terminal (by rw [hs]; rfl), hs]

/-- Settles O47: both positions fail the decode with EndOfProgram, which the step records and the run stops at. -/
theorem runningOffTheEndIsAFailure : Obligations.RunningOffTheEndIsAFailure := by
  intro c s _ hr hpc
  have hd : decode c s.buf s.pc = .err .endOfProgram := by
    rcases hpc with hend | ⟨b, hb, hx, hlast⟩
    · exact decode_at_end hend.ge
    · exact decode_prefix_at_end hb hx (Memory.read_eq_none.mpr hlast.ge)
  rw [stepState_err hr hd, runState_err hr hd]
  exact ⟨rfl, nofun, rfl⟩

/-- Settles O49: dispatch reports an opcode without a handler by its name, and a failed decode lacks bytes, which is another
reason. -/
theorem undispatchedOpcodeIsReported : Obligations.UndispatchedOpcodeIsReported := by
  intro c s hc hr
  refine ⟨Config.handlerOf_outOfRange c, fun op args next hd hop => ?_, fun r op t hd hstep => ?_⟩
  · refine ⟨(s.setPc next).unsupported op, op, ?_, rfl⟩
    rw [stepAt_of_wellFormed hc, stepState_ok hr hd, dispatch_of_unsupported hop]
  · rw [stepAt_of_wellFormed hc, stepState_err hr hd] at hstep
    cases hstep
    exact fun hfail => decode_err_ne_unsupportedOpcode hd op (Status.failed.inj hfail)

/-! ### The register index (60_exceptions R216) -/

/-- The form of LOAD_IMMEDIATE that loads a register writes it below 32 and fails from 32 on (42_dispatch R177). -/
theorem exec_extSecondLoadImmediate (n : Byte) (v : Half) (s : State) :
    exec (.extSecondLoadImmediate n v) s = .next (if n.toNat < numRegs then s.writeReg n.toNat (v.signExtend 32)
      else s.fail (.registerIndexOutOfRange n)) :=
  congrArg Host.Outcome.next (State.loadImmediate_ofByte_ofHalf s (.real 0x03) n v)

/-- Settles O31: below 32 the register write leaves the status Running; from 32 on the failure is terminal, so neither a step
nor a run goes on from it. -/
theorem registerIndexFailureFromThirtyTwoOn : Obligations.RegisterIndexFailureFromThirtyTwoOn := by
  intro s n v hr
  refine ⟨_, exec_extSecondLoadImmediate n v s, ?_⟩
  by_cases hn : n.toNat < numRegs
  · rw [if_pos hn]
    have hlt : ¬ 32 ≤ n.toNat := Nat.not_le.mpr hn
    refine ⟨⟨?_, fun hge => absurd hge hlt⟩, fun hge => absurd hge hlt⟩
    rintro ⟨k, hk⟩
    rw [State.writeReg_status, hr] at hk
    cases hk
  · rw [if_neg hn]
    have ht : (s.fail (.registerIndexOutOfRange n)).status.terminal = true := rfl
    refine ⟨⟨fun _ => Nat.le_of_not_lt hn, fun _ => ⟨n, rfl⟩⟩, fun _ => ⟨step_terminal ht, fun c hc => ?_⟩⟩
    rw [runAt_of_wellFormed hc, runState_terminal c ht]

end Sys2Proof.Machine
end

section
/-! Proofs about the prefix of a 16-bit immediate (70_reset R243): LOAD_IMMEDIATE passes its shape check only directly after
EXT_SECOND, and a decode is the same wherever its bytes stand in a buffer. -/

namespace Sys2Proof

open Machine (Memory)

/-! ### The two bytes that select a widened second argument (41_decoder R133) -/

theorem Config.extOf_fromByte_eq_second {c : Config} (hc : c.wellFormed = true) {b : Byte} :
    c.extOf (c.fromByte b) = .second ↔ b = c.toByte (.real c.ids.extSecond) := by
  obtain ⟨-, -, -, -, -, hlt, -⟩ := Config.ids_lt hc
  rw [← Config.fromByte_eq_real hc hlt]
  refine ⟨fun h => ?_, fun h => h ▸ (Config.extOf_named hc).2.1⟩
  rcases Config.extOf_eq (c := c) (c.fromByte b) with he | ⟨he, -⟩ | ⟨-, hop⟩ | ⟨he, -⟩
  · cases h.symm.trans he
  · cases h.symm.trans he
  · exact hop
  · cases h.symm.trans he

theorem decodeHead_extSecond {c : Config} {m : Memory} {pc : Nat} {b2 : Byte} (hc : c.wellFormed = true)
    (hb1 : m.read pc = some (c.toByte (.real c.ids.extSecond))) (hb2 : m.read (pc + 1) = some b2) :
    decodeHead c m pc = some (.second, c.fromByte b2, pc + 2) := by
  have he := (Config.extOf_fromByte_eq_second hc).mpr rfl
  rw [decodeHead_prefixed hb1 (Config.isExt_of_extOf (by rw [he]; nofun)) hb2, he]

/-- The latch is EXT_SECOND's exactly when the opcode's own byte stands directly after EXT_SECOND's. -/
theorem decodeHead_ext_eq_second {c : Config} {m : Memory} {pc a i : Nat} {e : Ext} (hc : c.wellFormed = true)
    (hi : i < c.K) (hhead : decodeHead c m pc = some (e, .real i, a)) :
    e = .second ↔
      m.read pc = some (c.toByte (.real c.ids.extSecond)) ∧ m.read (pc + 1) = some (c.toByte (.real i)) := by
  constructor
  · rintro rfl
    rcases decodeHead_eq_some.mp hhead with ⟨_, -, -, he, -⟩ | ⟨b1, b2, hb1, -, he, hb2, hop, -⟩
    · cases he
    · rw [(Config.extOf_fromByte_eq_second hc).mp he.symm] at hb1
      rw [(Config.fromByte_eq_real hc hi).mp hop.symm] at hb2
      exact ⟨hb1, hb2⟩
  · rintro ⟨hb1, hb2⟩
    rw [decodeHead_extSecond hc hb1 hb2] at hhead
    exact (Prod.mk.inj (Option.some.inj hhead)).1.symm

theorem Shape.widen_u8_s8_eq_u8_s16 (e : Ext) : Shape.widen [.u8, .s8] e = [.u8, .s16] ↔ e = .second := by
  cases e <;> decide

/-- A decoded LOAD_IMMEDIATE has the shape (U8, S16) only as the second byte of a fused EXT_SECOND (42_dispatch R177). -/
theorem decode_loadImmediate_specs_eq_u8_s16 {c : Config} {m : Memory} {pc next : Nat} {args : List Arg}
    (hc : c.wellFormed = true) (hd : decode c m pc = .ok { op := .real c.ids.loadImmediate, args := args } next) :
    args.map Arg.spec = [.u8, .s16] ↔
      m.read pc = some (c.toByte (.real c.ids.extSecond)) ∧
        m.read (pc + 1) = some (c.toByte (.real c.ids.loadImmediate)) := by
  obtain ⟨e, op, a, hhead, -, -, hins⟩ := decode_eq_ok.mp hd
  cases hins
  obtain ⟨-, -, hshape, -⟩ := Config.pinned hc
  obtain ⟨-, -, -, hlt, -⟩ := Config.ids_lt hc
  rw [takeArgs_spec, hshape, Shape.widen_u8_s8_eq_u8_s16, decodeHead_ext_eq_second hc hlt hhead]

/-- After EXT_SECOND the next byte's opcode is decoded by its shape widened at argument 2. -/
theorem decode_extSecond {c : Config} {m : Memory} {pc next : Nat} {b2 : Byte} {ins : Decoded}
    (hc : c.wellFormed = true) (hb1 : m.read pc = some (c.toByte (.real c.ids.extSecond)))
    (hb2 : m.read (pc + 1) = some b2) (hd : decode c m pc = .ok ins next) :
    ins.op = c.fromByte b2 ∧ ins.args.map Arg.spec = Shape.widen (c.shapeOf (c.fromByte b2)) .second := by
  obtain ⟨e, op, a, hhead, -, -, rfl⟩ := decode_eq_ok.mp hd
  rw [decodeHead_extSecond hc hb1 hb2] at hhead
  cases hhead
  exact ⟨rfl, takeArgs_spec _ _ _⟩

/-! ### Bytes before the start of a decode: each part of the decoder gives the tail's result, shifted -/

theorem takeArgs_tail (pre bs : List Byte) (a : Nat) (sh : Shape) :
    takeArgs (Memory.ofBytes (pre ++ bs)) (pre.length + a) sh = takeArgs (Memory.ofBytes bs) a sh :=
  takeArgs_congr _ _ sh fun k _ => by rw [Nat.add_assoc, Memory.read_tail]

theorem decodeHead_tail (c : Config) (pre bs : List Byte) (k : Nat) :
    decodeHead c (Memory.ofBytes (pre ++ bs)) (pre.length + k) =
      (decodeHead c (Memory.ofBytes bs) k).map (Prod.map id (Prod.map id (pre.length + ·))) := by
  simp only [decodeHead, Nat.add_assoc, Memory.read_tail]
  cases (Memory.ofBytes bs).read k with
  | none => rfl
  | some b =>
    cases hx : c.isExt (c.fromByte b) with
    | false => simp [hx]
    | true => cases (Memory.ofBytes bs).read (k + 1) <;> simp [hx]

theorem decodeBody_tail (c : Config) (pre bs : List Byte) (e : Ext) (op : Opcode) (a : Nat) :
    decodeBody c (Memory.ofBytes (pre ++ bs)) e op (pre.length + a) =
      (decodeBody c (Memory.ofBytes bs) e op a).shift pre.length := by
  have hfit (n : Nat) :
      (Memory.ofBytes (pre ++ bs)).length < pre.length + (a + n) ↔ (Memory.ofBytes bs).length < a + n := by simp
  by_cases hlong : (Memory.ofBytes bs).length < a + Shape.need (Shape.widen (c.shapeOf op) e)
  · simp only [decodeBody, Nat.add_assoc, hfit, hlong, if_true, DecodeResult.shift]
  · simp only [decodeBody, Nat.add_assoc, hfit, hlong, if_false, DecodeResult.shift, takeArgs_tail]

theorem DecodeResult.map_shift {α β : Type} (f : α → β) (d : Nat) (r : DecodeResult α) :
    (r.shift d).map f = (r.map f).shift d := by
  cases r <;> rfl

theorem decodeWithExt_tail (c : Config) (pre bs : List Byte) (k : Nat) :
    decodeWithExt c (Memory.ofBytes (pre ++ bs)) (pre.length + k) =
      (decodeWithExt c (Memory.ofBytes bs) k).shift pre.length := by
  simp only [decodeWithExt, decodeHead_tail]
  cases decodeHead c (Memory.ofBytes bs) k with
  | none => rfl
  | some head => exact decodeBody_tail c pre bs head.1 head.2.1 head.2.2

theorem decode_tail (c : Config) (pre bs : List Byte) (k : Nat) :
    decode c (Memory.ofBytes (pre ++ bs)) (pre.length + k) =
      (decode c (Memory.ofBytes bs) k).shift pre.length := by
  rw [decode, decodeWithExt_tail, DecodeResult.map_shift, ← decode]

end Sys2Proof

namespace Sys2Proof.Machine

/-! ### The shape check of LOAD_IMMEDIATE (42_dispatch R177) -/

/-- From Running, the handler ends in ArgumentShapeMismatch exactly when the shape check fails: past the check only the
register index can fail. -/
theorem State.loadImmediate_mismatch_iff {s : State} {op : Opcode} {args : List Arg} (hr : s.status = .running) :
    (∃ op' got, (s.loadImmediate op args).status = .failed (.argumentShapeMismatch op' got)) ↔
      args.map Arg.spec ≠ [.u8, .s16] := by
  refine ⟨?_, fun hne => ⟨op, args.map Arg.spec, by rw [State.loadImmediate_of_mismatch hne, State.fail_status]⟩⟩
  rintro ⟨op', got, hfail⟩ hspec
  obtain ⟨a1, a2, rfl, h1, h2⟩ := args_of_u8_s16 hspec
  rw [State.loadImmediate_of_spec h1 h2] at hfail
  by_cases hn : (a1.byte 0).toNat < numRegs
  · rw [State.loadReg_of_lt hn, State.writeReg_status, hr] at hfail
    cases hfail
  · rw [State.loadReg_of_ge (Nat.le_of_not_lt hn), State.fail_status] at hfail
    cases hfail

theorem dispatch_loadImmediate {c : Config} (hc : c.wellFormed = true) (args : List Arg) (s : State) :
    dispatch c { op := .real c.ids.loadImmediate, args := args } s =
      s.loadImmediate (.real c.ids.loadImmediate) args := by
  obtain ⟨-, -, -, hli, -⟩ := Config.handlerOf_named hc
  simp only [dispatch, hli]

/-- Settles O46: the shape check passes only on (U8, S16), which only the latch of EXT_SECOND makes of LOAD_IMMEDIATE's base
shape; and each part of the decoder reads the tail of a buffer as it reads the tail alone. -/
theorem immediateNeedsItsPrefixDirectlyBefore : Obligations.ImmediateNeedsItsPrefixDirectlyBefore := by
  intro c hc
  refine ⟨fun s args next hr hd => ?_, fun m pc next b2 ins hb1 hb2 hd => decode_extSecond hc hb1 hb2 hd,
    decode_tail c⟩
  have hrun : (s.setPc next).status = .running := hr
  rw [stepState_ok hr hd, dispatch_loadImmediate hc, State.loadImmediate_mismatch_iff hrun, ne_eq,
    decode_loadImmediate_specs_eq_u8_s16 hc hd]

end Sys2Proof.Machine
end

section
/-! Proofs about the decoder's micro-sequence (41_decoder R143): its states take the parts of a decode in order. -/

namespace Sys2Proof

open Machine (Memory)

/-- A decode whose head stands is its body at the head's cursor. -/
theorem decode_of_head {c : Config} {m : Memory} {pc a : Nat} {e : Ext} {op : Opcode}
    (hhead : decodeHead c m pc = some (e, op, a)) : decode c m pc = (decodeBody c m e op a).map Prod.snd := by
  simp only [decode, decodeWithExt, hhead]

end Sys2Proof

namespace Sys2Proof.Machine

/-- `SHAPE` where the arguments run past the buffer. -/
theorem microStep_shape_truncated {c : Config} {m : Memory} {r : MicroRegs}
    (h : m.length < r.a + Shape.need (Shape.widen (c.shapeOf r.op) r.ext)) :
    microStep c m .shape r = .done (.err (.truncatedInstruction r.op (Shape.widen (c.shapeOf r.op) r.ext).length
      (Shape.need (Shape.widen (c.shapeOf r.op) r.ext)))) := by
  simp only [microStep, h, if_true]

/-- `SHAPE` where they fit. -/
theorem microStep_shape_fits {c : Config} {m : Memory} {r : MicroRegs}
    (h : ¬ m.length < r.a + Shape.need (Shape.widen (c.shapeOf r.op) r.ext)) :
    microStep c m .shape r = .goto (if 0 < (Shape.widen (c.shapeOf r.op) r.ext).length then .arg 1 else .emit)
      { r with shape := Shape.widen (c.shapeOf r.op) r.ext } := by
  simp only [microStep, h, if_false, Nat.pos_iff_ne_zero, ne_eq, ite_not]

/-- With the arguments `taken` of the shape behind it and `rest` before it, the micro-sequence takes the rest, one `ARG`
state per argument, and emits. -/
theorem microRun_args {c : Config} {m : Memory} (k : Nat) (taken rest : Shape) (r : MicroRegs)
    (hshape : r.shape = taken ++ rest) :
    microRun c m (k + rest.length + 1) (if taken.length < r.shape.length then .arg (taken.length + 1) else .emit) r =
      some (.ok { op := r.op, args := r.args ++ takeArgs m r.a rest } (r.a + Shape.need rest)) := by
  induction rest generalizing taken r with
  | nil =>
    rw [if_neg (by simp [hshape]), microRun_of_done _ rfl]
    simp [takeArgs]
  | cons sp rest ih =>
    have hsp : r.shape[taken.length + 1 - 1]? = some sp := by simp [hshape]
    rw [if_pos (by simp [hshape]), microRun_of_goto _ (microStep_arg hsp)]
    have hrest := ih (taken ++ [sp])
      { r with args := r.args ++ [{ spec := sp, bytes := m.slice r.a sp.w.bytes }], a := r.a + sp.w.bytes }
      (by simp [hshape])
    simpa [takeArgs, Nat.add_assoc] using hrest

/-- From `SHAPE` the micro-sequence gives the outcome of the decode's body: the bound check, then at most three
arguments. -/
theorem microRun_shape (c : Config) (m : Memory) (k a : Nat) (e : Ext) (op : Opcode) (sh : Shape) :
    microRun c m (k + 5) .shape { a := a, ext := e, op := op, shape := sh, args := [] } =
      some ((decodeBody c m e op a).map Prod.snd) := by
  by_cases hlong : m.length < a + Shape.need (Shape.widen (c.shapeOf op) e)
  · rw [microRun_of_done _ (microStep_shape_truncated hlong)]
    simp only [decodeBody, hlong, if_true, DecodeResult.map]
  · have hlen : (Shape.widen (c.shapeOf op) e).length ≤ 3 :=
      (Shape.length_widen _ e).trans_le (Config.length_shapeOf_le c op)
    have hfuel : k + 4 = (k + 3 - (Shape.widen (c.shapeOf op) e).length) + (Shape.widen (c.shapeOf op) e).length + 1 := by
      omega
    rw [microRun_of_goto _ (microStep_shape_fits hlong), hfuel]
    refine (microRun_args _ [] (Shape.widen (c.shapeOf op) e)
      { a := a, ext := e, op := op, shape := Shape.widen (c.shapeOf op) e, args := [] } rfl).trans ?_
    simp only [decodeBody, hlong, if_false, DecodeResult.map, List.nil_append]

/-- Settles O22: `OP0` and `OP1` find the head of the decode or the end of the buffer, and from `SHAPE` on the states give
its body within the states that are left. -/
theorem microSequenceImplementsDecode : Obligations.MicroSequenceImplementsDecode := by
  intro c m pc _
  unfold microDecode microLimit
  cases hb : m.read pc with
  | none =>
    rw [decode_at_end (Memory.read_eq_none.mp hb)]
    exact microRun_of_done 6 (microStep_end hb).1
  | some b =>
    rw [microRun_of_goto 6 (microStep_op0 hb)]
    cases hx : c.isExt (c.fromByte b) with
    | false =>
      rw [decode_of_head (decodeHead_plain hb hx)]
      exact microRun_shape c m 1 _ _ _ _
    | true =>
      cases hb2 : m.read (pc + 1) with
      | none =>
        rw [decode_prefix_at_end hb hx hb2]
        exact microRun_of_done 5 (microStep_end hb2).2
      | some b2 =>
        rw [decode_of_head (decodeHead_prefixed hb hx hb2)]
        exact (microRun_of_goto 5 (microStep_op1 hb2)).trans (microRun_shape c m 0 _ _ _ _)

end Sys2Proof.Machine
end

section
/-! Proofs about the encoder of REF (30_encoding, 41_decoder section 2): encoding and decoding undo each other, through the
parts of an instruction. -/

namespace Sys2Proof

open Machine (Memory)

/-! ### Opcode bytes (40_opcode_table R101, R102) -/

theorem Config.ref_wellFormed : Config.ref.wellFormed = true := by decide

theorem Config.fromByte_toByte {c : Config} {op : Opcode} (hc : c.wellFormed = true) (hop : c.fetchable op = true) :
    c.fromByte (c.toByte op) = op := by
  cases op with
  | real i => exact Config.fromByte_toByte_real hc (of_decide_eq_true hop)
  | boundary => cases hop
  | outOfRange =>
    obtain ⟨-, hK⟩ := Config.K_bounds hc
    exact Config.fromByte_of_ge (show c.K ≤ 255 by omega)

/-- BOUNDARY's byte is the first that is out of range. -/
theorem Config.fromByte_toByte_boundary {c : Config} (hc : c.wellFormed = true) :
    c.fromByte (c.toByte .boundary) = .outOfRange := by
  obtain ⟨-, hK⟩ := Config.K_bounds hc
  exact Config.fromByte_of_ge (by rw [Config.toByte, BitVec.toNat_ofNat]; omega)

theorem Config.toByte_fromByte (c : Config) (b : Byte) : c.toByte (c.fromByte b) = if b.toNat < c.K then b else 255 := by
  unfold Config.fromByte
  split
  · exact BitVec.ofNat_toNat 8 b |>.trans (BitVec.setWidth_eq b)
  · rfl

/-- The two values past the real opcodes have different bytes (92_eei_decisions D4). -/
theorem Config.toByte_ne_toByte_boundary {c : Config} {op : Opcode} (hc : c.wellFormed = true)
    (hop : c.fetchable op = true) : c.toByte op ≠ c.toByte .boundary := by
  intro heq
  obtain ⟨-, hK⟩ := Config.K_bounds hc
  have hout := Config.fromByte_toByte hc hop
  rw [heq, Config.fromByte_toByte_boundary hc] at hout
  subst hout
  have hbytes : 255 = c.K % 2 ^ 8 := congrArg BitVec.toNat heq
  omega

/-- Settles O9: `fromByte` undoes `toByte` on what can be fetched, so equal bytes are equal opcodes there, and BOUNDARY's
byte is none of those. -/
theorem opcodeBytesRoundTrip : Obligations.OpcodeBytesRoundTrip := by
  intro c hc
  refine ⟨fun op hop => Config.fromByte_toByte hc hop, Config.fromByte_toByte_boundary hc, rfl, Config.toByte_fromByte c,
    fun op1 op2 h1 h2 heq => ?_⟩
  rcases h1 with h1 | rfl <;> rcases h2 with h2 | rfl
  · rw [← Config.fromByte_toByte hc h1, heq, Config.fromByte_toByte hc h2]
  · exact absurd heq (Config.toByte_ne_toByte_boundary hc h1)
  · exact absurd heq.symm (Config.toByte_ne_toByte_boundary hc h2)
  · rfl

/-! ### Decode of an encoding -/

/-- A latch is no byte, or one byte that sets it. -/
theorem Ext.encode_cases (e : Ext) :
    (e = .none ∧ e.encode = []) ∨
      ∃ b, e.encode = [b] ∧ Config.ref.isExt (Config.ref.fromByte b) = true ∧
        Config.ref.extOf (Config.ref.fromByte b) = e := by
  cases e
  case none => exact .inl ⟨rfl, rfl⟩
  all_goals exact .inr ⟨_, rfl, by decide, by decide⟩

theorem Ext.length_encode (e : Ext) : e.encode.length = if e = .none then 0 else 1 := by
  cases e <;> rfl

/-- Steps 1 and 2 of a decode read an encoding's latch and opcode. -/
theorem decodeHead_encode {e : Ext} {ins : Decoded} (h : PartsOk e ins) {m : Memory} {pc : Nat} {rest : List Byte}
    (hread : ∀ k, m.read (pc + k) = (e.encode ++ Config.ref.toByte ins.op :: rest)[k]?) :
    decodeHead Config.ref m pc = some (e, ins.op, pc + (e.encode.length + 1)) := by
  have hop := Config.fromByte_toByte Config.ref_wellFormed h.fetch
  have h0 := hread 0
  have h1 := hread 1
  rcases Ext.encode_cases e with ⟨rfl, he⟩ | ⟨b, he, hx, hext⟩
  · have hhead := decodeHead_plain (c := Config.ref) (b := Config.ref.toByte ins.op) (by simpa [he] using h0)
      (hop.symm ▸ h.plain rfl)
    rw [hhead, hop, he]
    rfl
  · rw [decodeHead_prefixed (by simpa [he] using h0) hx (by simpa [he] using h1), hop, hext, he]
    rfl

/-- The bytes of a latch, an opcode and its arguments (30_encoding R60). -/
def encodeParts (e : Ext) (ins : Decoded) : List Byte :=
  e.encode ++ Config.ref.toByte ins.op :: Arg.allBytes ins.args

theorem encode_eq_encodeParts (i : Instr) : encode i = encodeParts i.ext i.resolved := rfl

theorem Instr.length_eq (i : Instr) :
    i.length = i.ext.encode.length + 1 + Shape.need (i.resolved.args.map Arg.spec) := by
  rw [Ext.length_encode]
  rfl

/-- Past the latch and the opcode an encoding is its argument bytes. -/
theorem drop_encodeParts (e : Ext) (ins : Decoded) :
    (encodeParts e ins).drop (e.encode.length + 1) = Arg.allBytes ins.args := by
  simp [encodeParts, ← List.drop_drop]

theorem length_encodeParts {e : Ext} {ins : Decoded} (h : Arg.allSized ins.args = true) :
    (encodeParts e ins).length = e.encode.length + 1 + Shape.need (ins.args.map Arg.spec) := by
  simp only [encodeParts, List.length_append, List.length_cons, Arg.length_allBytes _ h]
  omega

/-- A decode at the bytes of parts that an encoding can have gives those parts back, wherever the bytes stand. -/
theorem decodeWithExt_encodeParts {e : Ext} {ins : Decoded} (h : PartsOk e ins) (pre post : List Byte) :
    decodeWithExt Config.ref (Memory.ofBytes (pre ++ encodeParts e ins ++ post)) pre.length =
      .ok (e, ins) (pre.length + (encodeParts e ins).length) := by
  have hlen := length_encodeParts (e := e) h.sized
  have hfit : (pre ++ encodeParts e ins ++ post).length = pre.length + (encodeParts e ins).length + post.length := by
    simp only [List.length_append]
  have hhead := decodeHead_encode h (m := Memory.ofBytes (pre ++ encodeParts e ins ++ post)) (pc := pre.length)
    (rest := Arg.allBytes ins.args ++ post) (fun k => by
      rw [List.append_assoc, Memory.read_tail, Memory.read_ofBytes]
      simp [encodeParts])
  have hslice := Memory.slice_inside pre (encodeParts e ins) post (e.encode.length + 1)
    (Shape.need (ins.args.map Arg.spec)) hlen.ge
  rw [drop_encodeParts, ← Arg.length_allBytes _ h.sized, List.take_length, Arg.length_allBytes _ h.sized] at hslice
  refine decodeWithExt_eq_ok.mpr ⟨_, _, hhead, ?_, ?_, ?_⟩ <;> rw [← h.spec]
  · rw [Memory.length_ofBytes]; omega
  · omega
  · rw [takeArgs_of_slice _ _ _ h.sized hslice (by rw [Memory.length_ofBytes]; omega)]

/-- Settles O23: a well-formed instruction is the one its parts give, and a decode gives the parts of an encoding back. -/
theorem decodeOfEncodeIsTheInstruction : Obligations.DecodeOfEncodeIsTheInstruction := by
  intro i pre post hi
  have hparts := Instr.partsOk_of_wellFormed i hi
  have hlen : (encode i).length = i.length := by
    rw [encode_eq_encodeParts, length_encodeParts hparts.sized, Instr.length_eq]
  refine ⟨?_, hlen⟩
  rw [decodeInstr, ← hlen, encode_eq_encodeParts, decodeWithExt_encodeParts hparts]
  simp only [DecodeResult.map, Instr.ofParts_of_wellFormed i hi]

/-! ### Encoding of a decode -/

/-- A decoded instruction of REF is well formed, and the spec's decode gave its latch and its decoded form. -/
theorem decodeInstr_eq_ok {m : Memory} {pc next : Nat} {i : Instr} (h : decodeInstr m pc = .ok i next) :
    i.wellFormed = true ∧ decodeWithExt Config.ref m pc = .ok (i.ext, i.resolved) next := by
  obtain ⟨⟨e, ins⟩, hd, rfl⟩ := DecodeResult.map_eq_ok.mp h
  obtain ⟨hresolved, hext, hwf⟩ := partsKept_of_partsOk e ins (partsOk_of_decode hd)
  exact ⟨hwf, by rw [hresolved, hext, hd]⟩

theorem Config.toByte_of_fromByte {c : Config} {b : Byte} {op : Opcode} (h : c.fromByte b = op) (hop : op ≠ .outOfRange) :
    c.toByte op = b := by
  subst h
  rw [Config.toByte_fromByte]
  exact if_pos (Nat.lt_of_not_le fun hK => hop (Config.fromByte_of_ge hK))

/-- The byte that sets a latch is the latch's byte. -/
theorem Ext.encode_extOf_fromByte {b : Byte} (hx : Config.ref.isExt (Config.ref.fromByte b) = true) :
    (Config.ref.extOf (Config.ref.fromByte b)).encode = [b] := by
  rcases Config.extOf_eq (c := Config.ref) (Config.ref.fromByte b) with he | ⟨he, hop⟩ | ⟨he, hop⟩ | ⟨he, hop⟩
  · exact absurd he (Config.extOf_ne_none hx)
  all_goals
    rw [he, ← Config.toByte_of_fromByte hop nofun]
    rfl

/-- The bytes that steps 1 and 2 read are the latch's and the opcode's. -/
theorem slice_of_decodeHead {m : Memory} {pc a : Nat} {e : Ext} {op : Opcode}
    (h : decodeHead Config.ref m pc = some (e, op, a)) (hop : op ≠ .outOfRange) :
    m.slice pc (e.encode.length + 1) = e.encode ++ [Config.ref.toByte op] := by
  rcases decodeHead_eq_some.mp h with ⟨b, hb, -, rfl, rfl, -⟩ | ⟨b, b2, hb, hx, rfl, hb2, rfl, -⟩
  · rw [Config.toByte_of_fromByte rfl hop]
    exact Memory.slice_succ 0 hb
  · rw [Config.toByte_of_fromByte rfl hop, Ext.encode_extOf_fromByte hx]
    exact (Memory.slice_succ 1 hb).trans (congrArg (b :: ·) (Memory.slice_succ 0 hb2))

/-- Where a decode ends, and the bytes it was read from. -/
theorem decodeWithExt_bytes {m : Memory} {pc next : Nat} {e : Ext} {ins : Decoded}
    (h : decodeWithExt Config.ref m pc = .ok (e, ins) next) :
    next = pc + (e.encode.length + 1 + Shape.need (ins.args.map Arg.spec)) ∧
    (ins.op ≠ .outOfRange →
      m.slice pc (e.encode.length + 1 + Shape.need (ins.args.map Arg.spec)) = encodeParts e ins) := by
  obtain ⟨op, a, hhead, hfit, rfl, rfl⟩ := decodeWithExt_eq_ok.mp h
  obtain ⟨-, -, -, -, ha⟩ := decodeHead_bounds hhead
  have hcursor : a = pc + (e.encode.length + 1) := by
    rw [ha, Ext.length_encode]
    split <;> rfl
  subst hcursor
  simp only [takeArgs_spec]
  refine ⟨by omega, fun hop => ?_⟩
  rw [Memory.slice_add _ _ _ (by omega), slice_of_decodeHead hhead hop, encodeParts, takeArgs_allBytes _ _ _ hfit,
    List.append_assoc, List.singleton_append]

/-- Settles O24: the decode's bytes are the encoding of its parts, which are the parts of the instruction. -/
theorem encodeOfDecodeIsTheBytes : Obligations.EncodeOfDecodeIsTheBytes := by
  intro m pc next i h
  obtain ⟨hwf, hd⟩ := decodeInstr_eq_ok h
  rw [Instr.length_eq]
  exact ⟨hwf, decodeWithExt_bytes hd⟩

/-- Settles O25: the typed form keeps the opcode and the arguments of every decode. -/
theorem instrDecoderRefinesDecode : Obligations.InstrDecoderRefinesDecode :=
  Machine.decodeInstr_map_resolved

end Sys2Proof
end

section
/-! Proofs about resolved shapes (41_decoder R135, 10_state section 4): which argument a latch widens, and how long the
arguments can be. -/

namespace Sys2Proof

theorem Ext.hits_eq_true_iff (e : Ext) (k : Nat) :
    e.hits k = true ↔ (k = 0 ∧ (e = .first ∨ e = .both)) ∨ (k = 1 ∧ (e = .second ∨ e = .both)) := by
  match k with
  | 0 => cases e <;> simp [Ext.hits, Ext.hitsFirst]
  | 1 => cases e <;> simp [Ext.hits, Ext.hitsSecond]
  | k + 2 => simp [Ext.hits]

/-- Settles O11: the resolved shape argument by argument, and the positions that a latch hits. -/
theorem wideningIsExact : Obligations.WideningIsExact := by
  intro sh e
  refine ⟨Shape.length_widen sh e, Shape.widen_none sh, fun k sp hsp => ?_⟩
  simp only [Shape.getElem?_widen, hsp, Option.map_some, ArgSpec.widen_eq, ← Ext.hits_eq_true_iff,
    and_comm (a := e.hits k = true)]

theorem ArgSpec.bytes_widen_le_two {hit : Bool} {a : ArgSpec} (h : a.w = .w8) : (a.widen hit).w.bytes ≤ 2 := by
  rw [ArgSpec.widen_eq]
  cases hit <;> simp [h, Width.bytes]

/-- A legal base shape resolves to at most 6 argument bytes: two arguments of 3, or three of 8 bits of which two are
widened. -/
theorem Shape.need_widen_le {sh : Shape} (h : Shape.legalBase sh = true) (e : Ext) :
    Shape.need (Shape.widen sh e) ≤ 6 := by
  match sh with
  | [] => simp
  | [a] =>
    have ha := (Width.bytes_le (a.widen e.hitsFirst).w).2
    simp only [Shape.widen, Shape.need_cons, Shape.need_nil]
    omega
  | [a, b] =>
    have ha := (Width.bytes_le (a.widen e.hitsFirst).w).2
    have hb := (Width.bytes_le (b.widen e.hitsSecond).w).2
    simp only [Shape.widen, Shape.need_cons, Shape.need_nil]
    omega
  | [a, b, d] =>
    simp only [Shape.legalBase, Bool.and_eq_true, decide_eq_true_eq] at h
    obtain ⟨⟨ha, hb⟩, hd⟩ := h
    have hd : d.w.bytes = 1 := congrArg Width.bytes hd
    have ha := ArgSpec.bytes_widen_le_two (hit := e.hitsFirst) ha
    have hb := ArgSpec.bytes_widen_le_two (hit := e.hitsSecond) hb
    simp only [Shape.widen, Shape.need_cons, Shape.need_nil]
    omega
  | _ :: _ :: _ :: _ :: _ => cases h

/-- Settles O12: the number of arguments is the table's, and every base shape of a well-formed configuration is legal. -/
theorem resolvedShapesAreBounded : Obligations.ResolvedShapesAreBounded := by
  intro c op e hc
  exact ⟨(Shape.length_widen _ e).trans_le (Config.length_shapeOf_le c op),
    Shape.need_widen_le (Config.shapeOf_legal hc op) e⟩

end Sys2Proof
end

section
/-! Proofs about the canonical form of a buffer (20_memory section 1, log entry 1). -/

namespace Sys2Proof.Machine

theorem Memory.cellsOk_cons {lo hi k : Nat} {b : Byte} {rest : List Host.Cell} :
    Memory.cellsOk lo hi ((k, b) :: rest) = true ↔
      lo ≤ k ∧ k < hi ∧ b ≠ Memory.unlisted ∧ Memory.cellsOk (k + 1) hi rest = true := by
  simp only [Memory.cellsOk, Bool.and_eq_true, decide_eq_true_eq, and_assoc]

@[simp] theorem Memory.lookup_cons_same (k : Nat) (b : Byte) (rest : List Host.Cell) :
    Memory.lookup ((k, b) :: rest) k = b := if_pos rfl

theorem Memory.lookup_cons_of_lt {k a : Nat} (b : Byte) (rest : List Host.Cell) (h : k < a) :
    Memory.lookup ((k, b) :: rest) a = Memory.lookup rest a := if_neg h.ne

/-- A canonical cell list that reads as unlisted everywhere has no cell. -/
theorem Memory.cells_eq_nil {lo hi : Nat} {cs : List Host.Cell} (hok : Memory.cellsOk lo hi cs = true)
    (h : ∀ a < hi, Memory.lookup cs a = Memory.unlisted) : cs = [] := by
  cases cs with
  | nil => rfl
  | cons cell rest =>
    obtain ⟨k, b⟩ := cell
    obtain ⟨-, hk, hb, -⟩ := Memory.cellsOk_cons.mp hok
    exact absurd ((Memory.lookup_cons_same k b rest).symm.trans (h k hk)) hb

/-- Where two canonical cell lists read the same, neither starts above the other: below its first key a list reads as
unlisted, and at its first key it does not. -/
theorem Memory.first_key_le {lo hi k1 k2 : Nat} {b1 b2 : Byte} {cs1 cs2 : List Host.Cell}
    (h1 : Memory.cellsOk lo hi ((k1, b1) :: cs1) = true) (h2 : Memory.cellsOk lo hi ((k2, b2) :: cs2) = true)
    (h : ∀ a < hi, Memory.lookup ((k1, b1) :: cs1) a = Memory.lookup ((k2, b2) :: cs2) a) : k2 ≤ k1 := by
  obtain ⟨-, hk1, hb1, -⟩ := Memory.cellsOk_cons.mp h1
  obtain ⟨-, hk2, hb2, hrest2⟩ := Memory.cellsOk_cons.mp h2
  by_contra hlt
  have hbelow := Memory.lookup_of_lt ((k2, b2) :: cs2) k2 k1
    (Memory.cellsOk_cons.mpr ⟨Nat.le_refl _, hk2, hb2, hrest2⟩) (by omega)
  rw [← h k1 hk1, Memory.lookup_cons_same] at hbelow
  exact hb1 hbelow

/-- Two canonical cell lists that read the same are the same list. -/
theorem Memory.cells_ext {lo hi : Nat} {cs1 cs2 : List Host.Cell} (h1 : Memory.cellsOk lo hi cs1 = true)
    (h2 : Memory.cellsOk lo hi cs2 = true) (h : ∀ a < hi, Memory.lookup cs1 a = Memory.lookup cs2 a) : cs1 = cs2 := by
  induction cs1 generalizing lo cs2 with
  | nil => exact (Memory.cells_eq_nil h2 fun a ha => (h a ha).symm).symm
  | cons cell1 rest1 ih =>
    cases cs2 with
    | nil => exact Memory.cells_eq_nil h1 h
    | cons cell2 rest2 =>
      obtain ⟨k, b1⟩ := cell1
      obtain ⟨k2, b2⟩ := cell2
      obtain rfl : k = k2 := Nat.le_antisymm (Memory.first_key_le h2 h1 fun a ha => (h a ha).symm)
        (Memory.first_key_le h1 h2 h)
      obtain ⟨-, hk, -, hrest1⟩ := Memory.cellsOk_cons.mp h1
      obtain ⟨-, -, -, hrest2⟩ := Memory.cellsOk_cons.mp h2
      obtain rfl : b1 = b2 := by simpa using h k hk
      congr 1
      refine ih hrest1 hrest2 fun a ha => ?_
      by_cases hle : a < k + 1
      · rw [Memory.lookup_of_lt rest1 _ a hrest1 hle, Memory.lookup_of_lt rest2 _ a hrest2 hle]
      · have := h a ha
        rwa [Memory.lookup_cons_of_lt b1 rest1 (by omega), Memory.lookup_cons_of_lt b1 rest2 (by omega)] at this

theorem Memory.read_of_lt {m : Memory} {a : Nat} (h : a < m.length) : m.read a = some (Memory.lookup m.cells a) :=
  if_pos h

/-- A buffer that reads as another is no longer than it. -/
theorem Memory.length_le_of_read_eq {m1 m2 : Memory} (h : ∀ a, m1.read a = m2.read a) : m1.length ≤ m2.length := by
  rw [← Memory.read_eq_none, h, Memory.read_eq_none]

/-- Settles O7: the reads give the length, and then the cells. -/
theorem canonicalBuffersWithEqualBytesAreEqual : Obligations.CanonicalBuffersWithEqualBytesAreEqual := by
  intro m1 m2 h1 h2 h
  obtain ⟨len, cs1⟩ := m1
  obtain ⟨len2, cs2⟩ := m2
  obtain rfl : len = len2 := Nat.le_antisymm (Memory.length_le_of_read_eq h)
    (Memory.length_le_of_read_eq fun a => (h a).symm)
  congr 1
  refine Memory.cells_ext h1 h2 fun a ha => ?_
  exact Option.some.inj ((Memory.read_of_lt ha).symm.trans ((h a).trans (Memory.read_of_lt ha)))

end Sys2Proof.Machine
end

section
/-! Proofs about the host's operations and the state they leave (10_state section 7, 70_reset R240, 20_memory R52,
40_opcode_table R109). -/

namespace Sys2Proof.Machine

/-! ### What is admitted and what is refused -/

theorem load_of_fits {c : Config} {bytes : List Byte} (hc : c.wellFormed = true) (h : bytes.length ≤ c.maxProgLen)
    (s : State) : load c bytes s = .next (State.loaded c bytes) := by
  simp only [load, hc, h, if_true]

/-- Settles O3: the length check of an admitted configuration fails. -/
theorem longLoadIsRefused : Obligations.LongLoadIsRefused := by
  intro c bytes s hc h
  simp only [load, hc, Nat.not_le.mpr h, if_true, if_false]

theorem load_of_illFormed {c : Config} (hc : c.wellFormed = false) (bytes : List Byte) (s : State) :
    load c bytes s = .refused .illFormedConfig := by
  simp only [load, hc, Bool.false_eq_true, if_false]

theorem traceEvent_of_illFormed {c : Config} (hc : c.wellFormed = false) (s : State) : traceEvent c s = none := by
  simp only [traceEvent, hc, Bool.false_eq_true, if_false]

/-- Settles O4: each operation begins with the check of the configuration. -/
theorem illFormedConfigurationIsRefused : Obligations.IllFormedConfigurationIsRefused := by
  refine ⟨Config.ref_wellFormed, fun c s bytes => ⟨fun hc => ?_, fun hc => ?_⟩⟩
  · exact ⟨stepAt_of_illFormed hc s, stepAt_of_illFormed hc s, runAt_of_illFormed hc s, runToEnd_of_illFormed hc s,
      load_of_illFormed hc bytes s, traceEvent_of_illFormed hc s⟩
  · exact ⟨stepAt_of_wellFormed hc s, stepAt_of_wellFormed hc s, runAt_of_wellFormed hc s, runToEnd_of_wellFormed hc s⟩

/-! ### The state after reset and after a load -/

/-- A register of the reset file holds its `REG_RESET` entry, as a 32-bit pattern. -/
theorem resetRegs_getElem (c : Config) (i : Fin numRegs) :
    c.resetRegs[i] = BitVec.ofInt 32 (c.regReset.getD i.val 0) := by
  simp [Config.resetRegs]

/-- Under a well-formed configuration the entry is the register's signed value. -/
theorem resetRegs_toInt {c : Config} (hc : c.wellFormed = true) (i : Fin numRegs) :
    c.resetRegs[i].toInt = c.regReset.getD i.val 0 := by
  obtain ⟨hlo, hhi⟩ := Config.regReset_range hc i
  rw [resetRegs_getElem, BitVec.toInt_ofInt_eq_self (by decide) (by omega) (by omega)]

/-- Settles O1: the fields of the reset state, whose registers are REF's entries. -/
theorem resetIsEmptyProgramAtOffsetZero : Obligations.ResetIsEmptyProgramAtOffsetZero := by
  refine ⟨rfl, rfl, rfl, fun a => Memory.read_eq_none.mpr (Nat.zero_le a), fun i => ?_⟩
  refine (resetRegs_getElem Config.ref i).trans ?_
  simp [Config.ref]

/-- Settles O2: the admitted load leaves the loaded state, whose buffer reads as the bytes. -/
theorem loadReplacesTheWholeState : Obligations.LoadReplacesTheWholeState := by
  intro c bytes s hc h
  exact ⟨State.loaded c bytes, load_of_fits hc h s, rfl, rfl, rfl, Memory.read_ofBytes bytes, resetRegs_toInt hc⟩

/-- Settles O52: the empty program has no byte at its start, and the run stops at that failure. -/
theorem emptyProgramEndsAtOnce : Obligations.EmptyProgramEndsAtOnce := by
  intro c _
  have hd : decode c (State.loaded c []).buf (State.loaded c []).pc = .err .endOfProgram :=
    decode_at_end (Nat.le_refl 0)
  rw [runState_err rfl hd, stepState_err rfl hd]
  exact ⟨rfl, rfl, rfl⟩

end Sys2Proof.Machine
end

section
/-! Proofs about the machine's invariant (10_state sections 3 and 4): reset and a load establish it, every step keeps it. -/

namespace Sys2Proof

open Machine (Memory)

/-- What a decoded instruction is made of: an opcode that can be fetched, and arguments of its shape under some latch. -/
theorem decode_ok_resolved {c : Config} {m : Memory} {pc next : Nat} {ins : Decoded} (h : decode c m pc = .ok ins next) :
    c.fetchable ins.op = true ∧ ∃ e : Ext, ins.args.map Arg.spec = Shape.widen (c.shapeOf ins.op) e := by
  obtain ⟨e, op, a, hhead, -, -, rfl⟩ := decode_eq_ok.mp h
  obtain ⟨-, -, -, hfetch, -⟩ := decodeHead_bounds hhead
  exact ⟨hfetch, e, takeArgs_spec _ _ _⟩

end Sys2Proof

namespace Sys2Proof.Machine

/-- Settles O56: the empty buffer is canonical and nothing has failed. -/
theorem invariantHoldsAtReset : Obligations.InvariantHoldsAtReset :=
  ⟨Memory.wf_empty, Nat.zero_le _, Nat.zero_le _, trivial⟩

/-- Settles O57: a load's buffer is canonical and of admitted length. -/
theorem invariantHoldsAfterLoad : Obligations.InvariantHoldsAfterLoad := by
  intro c bytes s t h
  obtain ⟨-, hlen, rfl⟩ := load_eq_next h
  exact ⟨Memory.wf_ofBytes bytes, hlen, Nat.zero_le _, trivial⟩

/-- A decode fails with a legal reason. -/
theorem reasonLegal_of_decode_err {c : Config} {m : Memory} {pc : Nat} {r : Reason} (h : decode c m pc = .err r) :
    ReasonLegal c r := by
  rcases decode_eq_err.mp h with ⟨-, rfl⟩ | ⟨e, op, a, hhead, -, rfl⟩
  · trivial
  · obtain ⟨-, -, -, hfetch, -⟩ := decodeHead_bounds hhead
    exact ⟨hfetch, e, rfl, rfl⟩

/-- The dispatch of a decoded instruction keeps the status legal: each of its failures has the payload of its rule. -/
theorem statusLegal_dispatch {c : Config} {ins : Decoded} {s : State} (hc : c.wellFormed = true)
    (hfetch : c.fetchable ins.op = true) (hspec : ∃ e : Ext, ins.args.map Arg.spec = Shape.widen (c.shapeOf ins.op) e)
    (hs : StatusLegal c s.status) : StatusLegal c (dispatch c ins s).status := by
  rcases dispatch_cases c ins s with ⟨-, h⟩ | ⟨-, h⟩ | ⟨_, _, -, -, -, -, -, -, h⟩ | ⟨_, _, -, -, -, -, -, hn, h⟩ |
    ⟨-, hop, hne, h⟩ | ⟨hop, h⟩ <;> rw [h]
  · trivial
  · exact hs
  · exact hs
  · exact hn
  · obtain ⟨e, he⟩ := hspec
    obtain ⟨-, -, hshape, -⟩ := Config.pinned hc
    rw [hop, hshape, Shape.widen_u8_s8] at he
    refine ⟨hop, ?_⟩
    cases e with
    | none => exact .inl he
    | first => exact .inr (.inl he)
    | second => exact absurd he hne
    | both => exact .inr (.inr he)
  · exact ⟨hfetch, hop⟩

theorem statusLegal_stepState {c : Config} {s : State} (hc : c.wellFormed = true) (hs : StatusLegal c s.status) :
    StatusLegal c (stepState c s).status := by
  rcases stepState_cases c s with ⟨-, h⟩ | ⟨r, -, hd, h⟩ | ⟨ins, next, hr, hd, h⟩ <;> rw [h]
  · exact hs
  · exact reasonLegal_of_decode_err hd
  · obtain ⟨hfetch, hspec⟩ := decode_ok_resolved hd
    exact statusLegal_dispatch hc hfetch hspec hs

theorem State.inv_stepState {c : Config} {s : State} (hc : c.wellFormed = true) (hs : s.Inv c) :
    (stepState c s).Inv c := by
  obtain ⟨hwf, hfits, hpc, hlegal⟩ := hs
  obtain ⟨-, hpc'⟩ := stepState_pc_bounds c hpc
  have hbuf := stepState_buf c s
  exact ⟨hbuf ▸ hwf, hbuf ▸ hfits, hbuf.symm ▸ hpc', statusLegal_stepState hc hlegal⟩

/-- Settles O55: a step leaves the buffer, keeps `pc` inside it and records legal failures only. -/
theorem stepKeepsTheInvariant : Obligations.StepKeepsTheInvariant := by
  refine ⟨fun c s t hc hs h => ?_, fun s t hs h => ?_⟩
  · rw [stepAt_of_wellFormed hc] at h
    cases h
    exact State.inv_stepState hc hs
  · rw [step_eq_stepState] at h
    cases h
    exact State.inv_stepState Config.ref_wellFormed hs

end Sys2Proof.Machine
end

section
/-! Proofs about whole runs (42_dispatch R170, R171): the machine of REF against the machine of any configuration, the course
of a run, and how every run ends. -/

namespace Sys2Proof.Machine

/-! ### The machine of REF -/

/-- Settles O38: REF is well formed, so its step is admitted and is the state transition. -/
theorem stepIsTheAnyConfigurationStepAtRef : Obligations.StepIsTheAnyConfigurationStepAtRef := by
  intro s
  rw [step_eq_stepState, stepAt_of_wellFormed Config.ref_wellFormed]

theorem coreRun_succ_of_next {M : Host.Core} {n : Nat} {s s' : M.State} (h : M.step s = .next s') :
    M.run (n + 1) s = M.run n s' := by
  simp only [Host.Core.run, h]

/-- The host's runner on the machine of REF runs the steps under REF's configuration. -/
theorem coreRun_eq_runFor (n : Nat) (s : State) : Host.Core.run Sys2Proof.core n s = .next (runFor Config.ref n s) := by
  induction n generalizing s with
  | zero => rfl
  | succ n ih =>
    rw [runFor_succ]
    exact (coreRun_succ_of_next (M := Sys2Proof.core) (step_eq_stepState s)).trans (ih _)

/-- Settles O54: the runner's steps are the run's, and the bound is that of `run`. -/
theorem hostRunnerIsRun : Obligations.HostRunnerIsRun :=
  fun s => coreRun_eq_runFor _ s

/-! ### The registers do not influence the course (10_state R22) -/

/-- `t'` stands where `t` does, and each of its registers is that of `t` or as it began, in `y` for `t'` and in `s` for `t`. -/
structure SameCourse (s : State) (y : Vector Word numRegs) (t t' : State) : Prop where
  status : t'.status = t.status
  pc : t'.pc = t.pc
  buf : t'.buf = t.buf
  regs : ∀ r : Fin numRegs, t'.readReg r = t.readReg r ∨ (t.readReg r = s.readReg r ∧ t'.readReg r = y[r])

theorem sameCourse_start (s : State) (y : Vector Word numRegs) : SameCourse s y s { s with x := y } :=
  ⟨rfl, rfl, rfl, fun _ => .inr ⟨rfl, rfl⟩⟩

/-- A step keeps two states on the same course: a register it does not set in both stays as it was in each. -/
theorem sameCourse_stepState (c : Config) {s t t' : State} {y : Vector Word numRegs} (h : SameCourse s y t t') :
    SameCourse s y (stepState c t) (stepState c t') := by
  obtain ⟨z, rfl⟩ : ∃ z, t' = { t with x := z } := by
    obtain ⟨hstatus, hpc, hbuf, -⟩ := h
    exact ⟨t'.x, by rw [← hstatus, ← hpc, ← hbuf]⟩
  obtain ⟨hstatus, hpc, hregs⟩ := stepState_withRegs c t z
  refine ⟨hstatus, hpc, by rw [stepState_buf, stepState_buf], fun r => ?_⟩
  rcases hregs r with hset | ⟨hkept, hkept'⟩
  · exact .inl hset
  · rw [hkept, hkept']
    exact h.regs r

theorem sameCourse_runFor (c : Config) (n : Nat) {s t t' : State} {y : Vector Word numRegs} (h : SameCourse s y t t') :
    SameCourse s y (runFor c n t) (runFor c n t') := by
  induction n generalizing t t' with
  | zero => exact h
  | succ n ih =>
    rw [runFor_succ, runFor_succ]
    exact ih (sameCourse_stepState c h)

/-- Settles O43: the two runs start on the same course, and every step keeps them on it. -/
theorem runCourseIsIndependentOfTheRegisters : Obligations.RunCourseIsIndependentOfTheRegisters := by
  intro c s y n _
  obtain ⟨hstatus, hpc, hbuf, hregs⟩ := sameCourse_runFor c n (sameCourse_start s y)
  exact ⟨hstatus, hpc, hbuf, hregs⟩

/-! ### Every run ends (42_dispatch R171) -/

/-- A step ends the run or consumes a byte. -/
theorem stepState_terminal_or_pc_lt (c : Config) (s : State) :
    (stepState c s).status.terminal = true ∨ (s.pc < (stepState c s).pc ∧ (stepState c s).pc ≤ s.buf.length) := by
  rcases stepState_cases c s with ⟨ht, h⟩ | ⟨r, -, -, h⟩ | ⟨ins, next, hr, hd, -⟩
  · exact .inl (by rw [h]; exact ht)
  · exact .inl (by rw [h]; rfl)
  · rw [stepState_pc_of_decode_ok hr hd]
    exact .inr (decode_bounds hd)

/-- One step more than there are bytes ahead ends every run. -/
theorem runFor_status_terminal (c : Config) {n : Nat} {s : State} (h : s.buf.length - s.pc + 1 ≤ n) :
    (runFor c n s).status.terminal = true := by
  induction n generalizing s with
  | zero => omega
  | succ n ih =>
    rw [runFor_succ]
    rcases stepState_terminal_or_pc_lt c s with ht | ⟨hlt, hle⟩
    · rw [runFor_terminal c n _ ht]
      exact ht
    · exact ih (by rw [stepState_buf]; omega)

theorem runState_status_terminal (c : Config) (s : State) : (runState c s).status.terminal = true :=
  runFor_status_terminal c (Nat.le_refl _)

theorem runFor_add (c : Config) (n k : Nat) (s : State) : runFor c (n + k) s = runFor c k (runFor c n s) := by
  induction n generalizing s with
  | zero => rw [Nat.zero_add, runFor_zero]
  | succ n ih => rw [Nat.add_right_comm, runFor_succ, runFor_succ, ih]

/-- Settles O50: each step that does not end the run consumes a byte, and a terminal state stays as it is. -/
theorem everyRunEnds : Obligations.EveryRunEnds := by
  intro c s _
  refine ⟨runState_status_terminal c s, fun n hn => ?_⟩
  obtain ⟨k, rfl⟩ := Nat.exists_eq_add_of_le hn
  rw [runFor_add]
  exact runFor_terminal c k _ (runState_status_terminal c s)

/-! ### Only a HALT byte halts (42_dispatch R174) -/

/-- The opcode of a decoded instruction is that of a byte at or after its start. -/
theorem decode_ok_op_fetched {c : Config} {m : Memory} {pc next : Nat} {ins : Decoded}
    (h : decode c m pc = .ok ins next) : ∃ a b, pc ≤ a ∧ m.read a = some b ∧ c.fromByte b = ins.op := by
  obtain ⟨e, op, a, hhead, -, -, rfl⟩ := decode_eq_ok.mp h
  rcases decodeHead_eq_some.mp hhead with ⟨b, hb, -, -, rfl, -⟩ | ⟨_, b, -, -, -, hb, rfl, -⟩
  · exact ⟨pc, b, Nat.le_refl _, hb, rfl⟩
  · exact ⟨pc + 1, b, Nat.le_succ _, hb, rfl⟩

/-- Only HALT halts. -/
theorem dispatch_halted {c : Config} {ins : Decoded} {s : State} (hs : s.status = .running)
    (h : (dispatch c ins s).status = .halted) : ins.op = .real c.ids.halt := by
  rcases dispatch_cases c ins s with ⟨hop, -⟩ | ⟨-, hd⟩ | ⟨_, _, -, -, -, -, -, -, hd⟩ | ⟨_, _, -, -, -, -, -, -, hd⟩ |
    ⟨-, -, -, hd⟩ | ⟨-, hd⟩
  · exact hop
  all_goals
    rw [hd] at h
    simp [hs] at h

/-- The run has not halted and no byte of HALT's value lies ahead of it. -/
def NoHaltAhead (c : Config) (s : State) : Prop :=
  s.status ≠ .halted ∧ ∀ a, s.pc ≤ a → s.buf.read a ≠ some (c.toByte (.real c.ids.halt))

theorem noHaltAhead_stepState {c : Config} (hc : c.wellFormed = true) (s : State) (h : NoHaltAhead c s) :
    NoHaltAhead c (stepState c s) := by
  obtain ⟨hstatus, hbytes⟩ := h
  obtain ⟨hlt, -⟩ := Config.ids_lt hc
  have hpc : s.pc ≤ (stepState c s).pc := by
    have := stepState_pc_cases c s
    omega
  refine ⟨?_, fun a ha => by rw [stepState_buf]; exact hbytes a (hpc.trans ha)⟩
  rcases stepState_cases c s with ⟨-, hs⟩ | ⟨r, -, -, hs⟩ | ⟨ins, next, hr, hd, hs⟩ <;> rw [hs]
  · exact hstatus
  · nofun
  · intro hhalt
    obtain ⟨a, b, ha, hb, hop⟩ := decode_ok_op_fetched hd
    rw [dispatch_halted (s := s.setPc next) hr hhalt, Config.fromByte_eq_real hc hlt] at hop
    exact hbytes a ha (hop ▸ hb)

/-- Settles O51: the run ends, and no step of it halts, since the opcode of what it halts on would be a HALT byte ahead. -/
theorem programWithoutHaltFails : Obligations.ProgramWithoutHaltFails := by
  intro c s hc hr hbytes
  obtain ⟨hhalt, -⟩ : NoHaltAhead c (runState c s) :=
    runFor_induction (noHaltAhead_stepState hc) _ s ⟨by rw [hr]; nofun, hbytes⟩
  have hend := runState_status_terminal c s
  cases hst : (runState c s).status with
  | running => rw [hst] at hend; cases hend
  | halted => exact absurd hst hhalt
  | failed r => exact ⟨r, rfl⟩

end Sys2Proof.Machine
end

section
/-! Proofs about the status register (10_state section 4, 92_eei_decisions D17): its fields determine a legal status. -/

namespace Sys2Proof.Machine

/-- The failure reason that the fields of the register stand for. -/
def reasonOfFields (c : Config) (f : StatusFields) : Reason :=
  match f.reason.toNat with
  | 2 => .truncatedInstruction (c.fromByte f.op) f.argc.toNat f.bytesNeeded.toNat
  | 3 => .unsupportedOpcode (c.fromByte f.op)
  | 4 => .registerIndexOutOfRange f.index
  | 5 => .argumentShapeMismatch (c.fromByte f.op) f.got
  | _ => .endOfProgram

/-- The status that the fields of the register stand for. -/
def statusOfFields (c : Config) (f : StatusFields) : Status :=
  match f.state.toNat with
  | 0 => .running
  | 1 => .halted
  | _ => .failed (reasonOfFields c f)

/-- The numbers of a legal truncation fit their fields. -/
theorem truncation_fields_toNat {c : Config} {op : Opcode} {argc need : Nat} (hc : c.wellFormed = true)
    (h : ReasonLegal c (.truncatedInstruction op argc need)) :
    (BitVec.ofNat 2 argc).toNat = argc ∧ (BitVec.ofNat 4 need).toNat = need := by
  obtain ⟨-, e, rfl, rfl⟩ := h
  have hargc := Config.length_shapeOf_le c op
  have hneed := Shape.need_widen_le (Config.shapeOf_legal hc op) e
  rw [← Shape.length_widen _ e] at hargc
  rw [BitVec.toNat_ofNat, BitVec.toNat_ofNat]
  omega

theorem reasonOfFields_failedFields {c : Config} {r : Reason} (hc : c.wellFormed = true) (h : ReasonLegal c r) :
    reasonOfFields c (failedFields c r) = r := by
  cases r with
  | endOfProgram => rfl
  | truncatedInstruction op argc need =>
    obtain ⟨hargc, hneed⟩ := truncation_fields_toNat hc h
    exact congr (congr (congrArg _ (Config.fromByte_toByte hc h.1)) hargc) hneed
  | unsupportedOpcode op => exact congrArg _ (Config.fromByte_toByte hc h.1)
  | registerIndexOutOfRange n => rfl
  | argumentShapeMismatch op got =>
    obtain ⟨rfl, -⟩ := h
    obtain ⟨-, -, -, hlt, -⟩ := Config.ids_lt hc
    exact congrArg (Reason.argumentShapeMismatch · got) (Config.fromByte_toByte_real hc hlt)

theorem failedFields_state (c : Config) (r : Reason) : (failedFields c r).state = 2 := by
  cases r <;> rfl

theorem failedFields_reason (c : Config) (r : Reason) : (failedFields c r).reason ∈ ([1, 2, 3, 4, 5] : List (BitVec 3)) := by
  cases r <;> simp [failedFields]

/-- The fields of a legal status stand for it. -/
theorem statusOfFields_statusFields {c : Config} {st : Status} (hc : c.wellFormed = true) (h : StatusLegal c st) :
    statusOfFields c (statusFields c st) = st := by
  cases st with
  | running => rfl
  | halted => rfl
  | failed r =>
    have hstate : (statusFields c (.failed r)).state.toNat = 2 := congrArg BitVec.toNat (failedFields_state c r)
    simp only [statusOfFields, hstate]
    exact congrArg Status.failed (reasonOfFields_failedFields hc h)

/-- Which values the `state` and `reason` fields hold. -/
theorem statusFields_codes (c : Config) (st : Status) :
    (statusFields c st).state ≠ 3 ∧ (statusFields c st).reason ≠ 6 ∧ (statusFields c st).reason ≠ 7 ∧
      ((statusFields c st).state = 0 ↔ st = .running) ∧ ((statusFields c st).state = 1 ↔ st = .halted) ∧
      ((statusFields c st).reason = 0 ↔ ∀ r, st ≠ .failed r) := by
  cases st with
  | running => simp [statusFields, StatusFields.zero]
  | halted => simp [statusFields, StatusFields.zero]
  | failed r =>
    have hreason := failedFields_reason c r
    simp only [statusFields, failedFields_state]
    generalize (failedFields c r).reason = code at hreason
    refine ⟨by decide, ?_, ?_, by simp, by simp, ?_⟩
    all_goals
      revert code
      simp

/-- Settles O58: a legal status is read back from its fields, so equal fields are equal statuses; the codes and the other
fields are those of each status. -/
theorem statusFieldsCarryTheStatus : Obligations.StatusFieldsCarryTheStatus := by
  intro c hc
  refine ⟨fun st1 st2 h1 h2 heq => ?_, statusFields_codes c, fun op argc need h => truncation_fields_toNat hc h,
    rfl, rfl, rfl, fun op argc need => ⟨_, _, rfl⟩, fun op => rfl, fun n => rfl, fun op got => rfl⟩
  rw [← statusOfFields_statusFields hc h1, heq, statusOfFields_statusFields hc h2]

end Sys2Proof.Machine
end

section
/-! Proofs about the outcomes of a decode (41_decoder sections 4 to 6) and the values of decoded arguments (30_encoding R65). -/

namespace Sys2Proof

open Machine (Memory)

/-! ### The failures (41_decoder R138, R139) -/

/-- EndOfProgram exactly where steps 1 and 2 find no opcode. -/
theorem decode_eq_endOfProgram {c : Config} {m : Memory} {pc : Nat} :
    decode c m pc = .err .endOfProgram ↔
      m.length ≤ pc ∨ ∃ b, m.read pc = some b ∧ c.isExt (c.fromByte b) = true ∧ m.length ≤ pc + 1 := by
  rw [← decodeHead_eq_none, decode_eq_err]
  simp

/-- TruncatedInstruction exactly where they do and the arguments of the resolved shape run past the buffer. -/
theorem decode_eq_truncated {c : Config} {m : Memory} {pc argc need : Nat} {op : Opcode} :
    decode c m pc = .err (.truncatedInstruction op argc need) ↔
      ∃ (e : Ext) (a : Nat), decodeHead c m pc = some (e, op, a) ∧ argc = (Shape.widen (c.shapeOf op) e).length ∧
        need = Shape.need (Shape.widen (c.shapeOf op) e) ∧ m.length < a + need := by
  rw [decode_eq_err]
  constructor
  · rintro (⟨-, hr⟩ | ⟨e, op', a, hhead, hlong, hr⟩)
    · cases hr
    · cases hr
      exact ⟨e, a, hhead, rfl, rfl, hlong⟩
  · rintro ⟨e, a, hhead, rfl, rfl, hlong⟩
    exact .inr ⟨e, op, a, hhead, hlong, rfl⟩

/-- Settles O17: the head of the decode is an opcode byte alone or one after an EXT byte. -/
theorem truncationExactlyWhenArgumentsDoNotFit : Obligations.TruncationExactlyWhenArgumentsDoNotFit := by
  intro c m pc op argc need _
  simp only [decode_eq_truncated, decodeHead_eq_some]

/-- Settles O18: the cursor stands one byte past `pc`, or two after an EXT byte, and the arguments end inside the buffer. -/
theorem decodeStaysInTheBuffer : Obligations.DecodeStaysInTheBuffer := by
  intro c m pc _ _
  rcases decode_cases c m pc with ⟨ins, next, hd⟩ | ⟨r, hd⟩
  · obtain ⟨e, op, a, hhead, hfit, rfl, rfl⟩ := decode_eq_ok.mp hd
    obtain ⟨hlt, hle, -⟩ := decodeHead_bounds hhead
    refine .inl ⟨_, _, a - pc - 1, hd, by omega, ?_, hfit⟩
    rw [takeArgs_spec]
    omega
  · rcases decode_err_needs_bytes hd with ⟨rfl, -⟩ | ⟨op, argc, need, rfl, -⟩
    · exact .inr (.inl hd)
    · exact .inr (.inr ⟨op, argc, need, hd⟩)

/-! ### What a decode depends on (41_decoder section 6) -/

/-- Steps 1 and 2 read only the bytes up to their cursor. -/
theorem decodeHead_congr {c : Config} {m1 m2 : Memory} {pc1 pc2 n : Nat} {e : Ext} {op : Opcode}
    (h : decodeHead c m1 pc1 = some (e, op, pc1 + n)) (hread : ∀ k < n, m2.read (pc2 + k) = m1.read (pc1 + k)) :
    decodeHead c m2 pc2 = some (e, op, pc2 + n) := by
  rcases decodeHead_eq_some.mp h with ⟨b, hb, hx, rfl, rfl, hn⟩ | ⟨b, b2, hb, hx, rfl, hb2, rfl, hn⟩
  · obtain rfl : n = 1 := by omega
    exact decodeHead_plain ((hread 0 (by omega)).trans hb) hx
  · obtain rfl : n = 2 := by omega
    exact decodeHead_prefixed ((hread 0 (by omega)).trans hb) hx ((hread 1 (by omega)).trans hb2)

/-- Where the bytes of a decoded instruction stand, in whatever buffer, it is decoded. -/
theorem decodeWithExt_congr {c : Config} {m1 m2 : Memory} {pc1 pc2 n : Nat} {v : Ext × Decoded}
    (h : decodeWithExt c m1 pc1 = .ok v (pc1 + n)) (hread : ∀ k < n, m2.read (pc2 + k) = m1.read (pc1 + k)) :
    decodeWithExt c m2 pc2 = .ok v (pc2 + n) := by
  obtain ⟨e, ins⟩ := v
  obtain ⟨op, a, hhead, hfit, hn, rfl⟩ := decodeWithExt_eq_ok.mp h
  obtain ⟨hlt, -⟩ := decodeHead_bounds hhead
  obtain ⟨j, rfl⟩ := Nat.exists_eq_add_of_le hlt.le
  have hlast : pc2 + (n - 1) < m2.length := by
    rw [← Memory.read_isSome, hread (n - 1) (by omega), Memory.read_isSome]
    omega
  refine decodeWithExt_eq_ok.mpr ⟨op, pc2 + j, decodeHead_congr hhead fun k hk => hread k (by omega), by omega, by omega,
    ?_⟩
  rw [takeArgs_congr (pc1 + j) (pc2 + j) _ fun k hk => ?_]
  rw [Nat.add_assoc, Nat.add_assoc, hread (j + k) (by omega)]

/-- Settles O20: the case of two buffers and one offset. -/
theorem decodeReadsOnlyTheInstruction : Obligations.DecodeReadsOnlyTheInstruction := by
  intro c m1 m2 pc next ins _ hd hread
  obtain ⟨hlt, -⟩ := decode_bounds hd
  obtain ⟨n, rfl⟩ := Nat.exists_eq_add_of_le hlt.le
  obtain ⟨v, hv, rfl⟩ := DecodeResult.map_eq_ok.mp hd
  exact DecodeResult.map_eq_ok.mpr
    ⟨v, decodeWithExt_congr hv fun k hk => hread (pc + k) (by omega) (by omega), rfl⟩

/-- Settles O21: a decode takes its arguments one after another by the resolved shape. -/
theorem decodedArgumentsMatchTheResolvedShape : Obligations.DecodedArgumentsMatchTheResolvedShape := by
  intro c m pc next ins _ hd
  refine ⟨(decode_ok_resolved hd).2, ?_⟩
  obtain ⟨e, op, a, -, hfit, rfl, rfl⟩ := decode_eq_ok.mp hd
  rw [takeArgs_spec, Nat.add_sub_cancel]
  exact ⟨takeArgs_allSized m a _ hfit, takeArgs_allBytes m a _ hfit⟩

/-! ### The value of an argument (41_decoder R137) -/

theorem toInt_range {w : Nat} (x : BitVec (w + 1)) : -2 ^ w ≤ x.toInt ∧ x.toInt ≤ 2 ^ w - 1 := by
  have hlo := x.le_toInt
  have hhi := x.toInt_lt
  simp only [Nat.add_sub_cancel] at hlo hhi
  omega

theorem Arg.eq_ofHalf_halfOf (sg : Sign) (hi lo : Byte) :
    ({ spec := { w := .w16, s := sg }, bytes := [hi, lo] } : Arg) = Arg.ofHalf sg (halfOf hi lo) := by
  simp only [Arg.ofHalf, extract_high, extract_low]

/-- Settles O13: each form by its reading, whose signed values are those of the bit patterns. -/
theorem argumentValuesAreAsTabulated : Obligations.ArgumentValuesAreAsTabulated := by
  intro b0 b1 b2 sg
  have h0 := b0.isLt
  have h1 := b1.isLt
  have hs8 := toInt_range b0
  have hs16 := toInt_range (w := 15) (b0 ++ b1)
  refine ⟨rfl, by omega, congrArg ArgValue.int (sval_eq_toInt 8 b0 (by decide)), hs8.1, hs8.2, rfl, by omega,
    congrArg ArgValue.int (sval_pair b0 b1), hs16.1, hs16.2, rfl, sext32_toInt _, fun s hn => ?_⟩
  rw [Arg.eq_ofHalf_halfOf]
  exact (Machine.State.loadImmediate_ofByte_ofHalf s _ b0 _).trans (if_pos hn)

end Sys2Proof

namespace Sys2Proof.Machine

/-- Settles O16: the two cases in which the head of a decode is missing, from `pc` at most `L`. -/
theorem endOfProgramInExactlyTwoCases : Obligations.EndOfProgramInExactlyTwoCases := by
  intro c s _ hpc
  refine ⟨?_, fun hr hd => stepState_err hr hd⟩
  rw [decode_eq_endOfProgram]
  constructor
  · rintro (hend | ⟨b, hb, hx, hend⟩)
    · exact .inl (Nat.le_antisymm hpc hend)
    · exact .inr ⟨b, hb, hx, Nat.le_antisymm (Memory.lt_of_read hb) hend⟩
  · rintro (hend | ⟨b, hb, hx, hend⟩)
    · exact .inl hend.ge
    · exact .inr ⟨b, hb, hx, hend.ge⟩

/-- Settles O15: the second EXT byte is the decode's opcode; it has no arguments, so it fits, and no handler. -/
theorem prefixAfterPrefixIsUnsupported : Obligations.PrefixAfterPrefixIsUnsupported := by
  intro c s b1 b2 hc hr hb1 hb2 hx1 hx2
  obtain ⟨hshape, hhandler⟩ := Config.isExt_shape_handler hc hx2
  have hd : decode c s.buf s.pc = .ok { op := c.fromByte b2, args := [] } (s.pc + 2) := by
    have hfits := decode_of_fits (decodeHead_prefixed hb1 hx1 hb2)
    rw [hshape, Shape.widen_nil] at hfits
    exact hfits (Memory.lt_of_read hb2)
  exact ⟨hd, by rw [stepState_ok hr hd, dispatch_of_unsupported hhandler]; rfl⟩

end Sys2Proof.Machine
end

section
/-! Proofs about the instructions of REF (42_dispatch section 2): what each meaning writes and what it leaves. -/

namespace Sys2Proof

theorem Config.handlerOf_eq_unsupported {c : Config} {op : Opcode} (hhalt : op ≠ .real c.ids.halt)
    (hnoop : op ≠ .real c.ids.noop) (hmove : op ≠ .real c.ids.move) (hli : op ≠ .real c.ids.loadImmediate) :
    c.handlerOf op = .unsupported := by
  simp only [Config.handlerOf, hhalt, hnoop, hmove, hli, if_false]

/-- The instruction whose decoded form is a LOAD_IMMEDIATE of shape (U8, S16) is the row of EXT_SECOND, with the first
argument's byte as its index. -/
theorem Instr.eq_extSecondLoadImmediate {i : Instr} {a1 a2 : Arg} (hi : i.wellFormed = true)
    (h : i.resolved = { op := .real Config.ref.ids.loadImmediate, args := [a1, a2] }) (h1 : a1.spec = .u8)
    (h2 : a2.spec = .s16) : ∃ v, i = .extSecondLoadImmediate (a1.byte 0) v := by
  obtain ⟨-, -, hspec, hsized⟩ := Instr.partsOk_of_wellFormed i hi
  obtain ⟨-, -, hshape, -⟩ := Config.pinned Config.ref_wellFormed
  have hext : i.ext = .second := by
    rw [h, hshape] at hspec
    exact (Shape.widen_u8_s8_eq_u8_s16 _).mp (by rw [← hspec, List.map_cons, List.map_cons, h1, h2]; rfl)
  rw [h] at hsized
  simp only [Arg.allSized, Bool.and_eq_true, decide_eq_true_eq] at hsized
  obtain ⟨b, rfl⟩ := Arg.eq_ofByte h1 hsized.1
  rw [← Instr.ofParts_of_wellFormed i hi, hext, h]
  exact ⟨_, rfl⟩

end Sys2Proof

namespace Sys2Proof.Machine

/-! ### The meanings one by one -/

/-- Settles O28: HALT's meaning is the halt of the state. -/
theorem haltWritesOnlyTheStatus : Obligations.HaltWritesOnlyTheStatus :=
  fun _ => rfl

/-- Settles O29: their meanings answer the state as it is. -/
theorem noopAndMoveHaveNoEffect : Obligations.NoopAndMoveHaveNoEffect :=
  fun _ _ _ => ⟨rfl, rfl⟩

/-- Settles O33: their meanings are the failure of an opcode without a handler. -/
theorem opcodesWithoutAHandlerAreUnsupported : Obligations.OpcodesWithoutAHandlerAreUnsupported :=
  fun _ _ _ _ _ => ⟨rfl, rfl, rfl, rfl, rfl, rfl, rfl, rfl, rfl, rfl, rfl, rfl, rfl⟩

/-- Settles O32: each of the three shapes fails the check of the handler. -/
theorem otherLoadImmediateShapesMismatch : Obligations.OtherLoadImmediateShapesMismatch := by
  intro s n v h k
  refine ⟨congrArg Host.Outcome.next ?_, congrArg Host.Outcome.next ?_, congrArg Host.Outcome.next ?_⟩
  all_goals exact State.loadImmediate_of_mismatch (by simp)

/-- Settles O30: the register write of an index below 32 and the failure of the others. -/
theorem loadImmediateWritesTheSignExtendedValue : Obligations.LoadImmediateWritesTheSignExtendedValue := by
  intro s n v
  rw [exec_extSecondLoadImmediate]
  refine ⟨fun h => ?_, fun h => ?_⟩
  · have hset : s.x.setIfInBounds n.toNat (v.signExtend 32) = s.x.set n.toNat (v.signExtend 32) h :=
      Vector.ext fun i hi => by rw [Vector.getElem_setIfInBounds, Vector.getElem_set]
    rw [if_pos h, State.writeReg, hset]
  · rw [if_neg (Nat.not_lt.mpr h)]
    rfl

/-! ### A prefixed instruction -/

/-- Settles O34: a prefixed instruction is the dispatch of its opcode and arguments. -/
theorem prefixedInstructionRunsTheOpcodeAfterThePrefix : Obligations.PrefixedInstructionRunsTheOpcodeAfterThePrefix := by
  intro s op args i hi
  have hexec : exec i s = .next (dispatch Config.ref { op := op, args := args } s) := by
    rcases hi with rfl | rfl | rfl <;> rfl
  rw [hexec]
  refine ⟨?_, ?_, fun h0 h1 h2 h3 => ?_⟩
  · rintro rfl
    rfl
  · rintro (rfl | rfl) <;> rfl
  · rw [dispatch_of_unsupported (Config.handlerOf_eq_unsupported h0 h1 h2 h3)]
    rfl

/-! ### The frame -/

/-- An instruction that changes a register is EXT_SECOND LOAD_IMMEDIATE, which names the register. -/
theorem exec_changes_readReg {i : Instr} {s t : State} {r : Fin numRegs} (hi : i.wellFormed = true ∨ i = .boundary)
    (hexec : exec i s = .next t) (h : t.readReg r ≠ s.readReg r) :
    ∃ n v, i = .extSecondLoadImmediate n v ∧ n.toNat = r.val := by
  rw [exec_eq_dispatch] at hexec
  cases hexec
  obtain ⟨a1, a2, hins, h1, h2, hr⟩ := dispatch_changes_readReg h
  rcases hi with hi | rfl
  · obtain ⟨v, rfl⟩ := Instr.eq_extSecondLoadImmediate hi hins h1 h2
    exact ⟨_, v, rfl, hr⟩
  · cases hins

theorem exec_extSecondLoadImmediate_status {n : Byte} {v : Half} {s t : State} (hn : n.toNat < numRegs)
    (h : exec (.extSecondLoadImmediate n v) s = .next t) : t.status = s.status := by
  rw [exec_extSecondLoadImmediate, if_pos hn] at h
  cases h
  rfl

/-- Settles O35: every meaning is a dispatch, which leaves the buffer and `pc`; NOOP and MOVE leave the state, and the one
meaning that writes a register leaves the status. -/
theorem instructionFrame : Obligations.InstructionFrame := by
  intro i s t hi hexec
  have ht : t = dispatch Config.ref i.resolved s := by
    rw [exec_eq_dispatch] at hexec
    exact (Host.Outcome.next.inj hexec).symm
  have hbuf : t.buf = s.buf := by rw [ht, dispatch_buf]
  refine ⟨fun a => by rw [hbuf], hbuf, by rw [ht, dispatch_pc], fun r hr => ?_, ?_⟩
  · obtain ⟨n, v, rfl, hn⟩ := exec_changes_readReg hi hexec hr
    exact ⟨n, v, rfl, hn, exec_extSecondLoadImmediate_status (hn ▸ r.isLt) hexec⟩
  · rintro (hop | hop | ⟨n, v, rfl, hn⟩)
    · rw [ht, dispatch, hop]
      rfl
    · rw [ht, dispatch, hop]
      rfl
    · exact exec_extSecondLoadImmediate_status hn hexec

end Sys2Proof.Machine
end

section
/-! Proofs about single steps (42_dispatch section 1, 60_exceptions): the step of REF on what it decodes, the cause of each
terminal status, and what the trace port tells. -/

namespace Sys2Proof.Machine

/-! ### The step of REF -/

/-- Settles O36: a Running step is the meaning of the decoded instruction past it. -/
theorem stepRunsTheDecodedInstruction : Obligations.StepRunsTheDecodedInstruction := by
  intro s i next hr hd
  have hstep : step s = exec i (s.setPc next) := by simp only [step, hr, hd]
  exact hstep

/-- Settles O37: a Running step records a decode failure. -/
theorem stepRecordsADecodeFailure : Obligations.StepRecordsADecodeFailure := by
  intro s r hr hd
  have hstep : step s = .next (s.fail r) := by simp only [step, hr, hd]
  exact hstep

/-- Settles O26: the five decodes, computed. -/
theorem writtenOutWordsDecode : Obligations.WrittenOutWordsDecode := by
  exact ⟨by decide, by decide, by decide, by decide, by decide⟩

/-- An instruction is decoded wherever the bytes it was decoded from stand. -/
theorem decodeInstr_congr {m1 m2 : Memory} {pc1 pc2 next : Nat} {i : Instr} (h : decodeInstr m1 pc1 = .ok i next)
    (hread : ∀ k < i.length, m2.read (pc2 + k) = m1.read (pc1 + k)) : decodeInstr m2 pc2 = .ok i (pc2 + i.length) := by
  obtain ⟨hwf, hd⟩ := decodeInstr_eq_ok h
  obtain ⟨-, rfl, -⟩ := encodeOfDecodeIsTheBytes m1 pc1 next i h
  rw [decodeInstr, decodeWithExt_congr hd hread]
  simp only [DecodeResult.map, Instr.ofParts_of_wellFormed i hwf]

/-- Settles O27: the placed bytes are read back at `pc`, so the instruction they hold is decoded there. -/
theorem placedTableWordIsWhatTheStepRuns : Obligations.PlacedTableWordIsWhatTheStepRuns := by
  intro s nbits w i h
  cases hd : decodeInstr (Memory.ofBytes (tableBytes nbits w)) 0 with
  | err r => simp only [decodeTableWord, hd, reduceCtorEq] at h
  | ok j next =>
    simp only [decodeTableWord, hd, Option.some.injEq] at h
    subst h
    obtain ⟨-, hnext, -⟩ := encodeOfDecodeIsTheBytes _ _ _ _ hd
    obtain ⟨-, hle⟩ := decode_bounds (c := Config.ref) (by rw [← decodeInstr_map_resolved, hd]; rfl)
    rw [Memory.length_ofBytes] at hle
    refine stepRunsTheDecodedInstruction _ j _ rfl (decodeInstr_congr hd fun k hk => ?_)
    rw [Nat.zero_add, Memory.read_ofBytes]
    exact Memory.read_placeAt s.buf s.pc (tableBytes nbits w) k (by omega)

/-! ### The statuses a dispatch leaves (60_exceptions section 2) -/

theorem dispatch_status_halted_iff {c : Config} {ins : Decoded} {s : State} (hs : s.status = .running) :
    (dispatch c ins s).status = .halted ↔ ins.op = .real c.ids.halt := by
  refine ⟨dispatch_halted hs, fun hop => ?_⟩
  have hhandler : c.handlerOf ins.op = .halt := if_pos hop
  simp only [dispatch, hhandler, State.halt_status]

/-- Why the dispatch of a decoded instruction fails (60_exceptions R212): no handler, the shape of LOAD_IMMEDIATE, or its
index. -/
inductive DispatchFails (c : Config) : Decoded → Reason → Prop
  | noHandler (op : Opcode) (args : List Arg) (hhalt : op ≠ .real c.ids.halt) (hnoop : op ≠ .real c.ids.noop)
      (hmove : op ≠ .real c.ids.move) (hli : op ≠ .real c.ids.loadImmediate) :
      DispatchFails c { op := op, args := args } (.unsupportedOpcode op)
  | shape (args : List Arg) (hspec : args.map Arg.spec ≠ [.u8, .s16]) :
      DispatchFails c { op := .real c.ids.loadImmediate, args := args }
        (.argumentShapeMismatch (.real c.ids.loadImmediate) (args.map Arg.spec))
  | index (a1 a2 : Arg) (h1 : a1.spec = .u8) (h2 : a2.spec = .s16) (hn : numRegs ≤ (a1.byte 0).toNat) :
      DispatchFails c { op := .real c.ids.loadImmediate, args := [a1, a2] } (.registerIndexOutOfRange (a1.byte 0))

theorem dispatch_of_dispatchFails {c : Config} {ins : Decoded} {r : Reason} (hc : c.wellFormed = true)
    (h : DispatchFails c ins r) (s : State) : dispatch c ins s = s.fail r := by
  cases h with
  | noHandler op args hhalt hnoop hmove hli =>
    exact dispatch_of_unsupported (Config.handlerOf_eq_unsupported hhalt hnoop hmove hli) s
  | shape args hspec => rw [dispatch_loadImmediate hc, State.loadImmediate_of_mismatch hspec]
  | index a1 a2 h1 h2 hn =>
    rw [dispatch_loadImmediate hc, State.loadImmediate_of_spec h1 h2, State.loadReg_of_ge hn, BitVec.ofNat_toNat,
      BitVec.setWidth_eq]

/-- From Running, a dispatch fails exactly so. -/
theorem dispatch_status_failed_iff {c : Config} {ins : Decoded} {s : State} {r : Reason} (hc : c.wellFormed = true)
    (hs : s.status = .running) : (dispatch c ins s).status = .failed r ↔ DispatchFails c ins r := by
  refine ⟨fun h => ?_, fun h => by rw [dispatch_of_dispatchFails hc h, State.fail_status]⟩
  obtain ⟨op, args⟩ := ins
  rcases dispatch_cases c ⟨op, args⟩ s with ⟨-, hd⟩ | ⟨-, hd⟩ | ⟨_, _, -, -, -, -, -, -, hd⟩ |
    ⟨a1, a2, -, hop, hargs, h1, h2, hn, hd⟩ | ⟨-, hop, hspec, hd⟩ | ⟨hhandler, hd⟩ <;> rw [hd] at h
  · cases h
  · cases hs.symm.trans h
  · cases hs.symm.trans h
  · cases h
    cases hop
    cases hargs
    exact .index a1 a2 h1 h2 hn
  · cases h
    cases hop
    exact .shape args hspec
  · cases h
    rcases Config.handlerOf_eq (c := c) op with ⟨hne, -⟩ | ⟨hne, -⟩ | ⟨hne, -⟩ | ⟨hne, -⟩ |
      ⟨-, hhalt, hnoop, hmove, hli⟩
    case inr.inr.inr.inr => exact .noHandler op args hhalt hnoop hmove hli
    all_goals cases hne.symm.trans hhandler

/-! ### The cause of each terminal status (60_exceptions sections 2 and 3) -/

theorem stepState_status_halted_iff {c : Config} {s : State} (hr : s.status = .running) :
    (stepState c s).status = .halted ↔
      ∃ args next, decode c s.buf s.pc = .ok { op := .real c.ids.halt, args := args } next := by
  constructor
  · intro h
    rcases stepState_cases c s with ⟨-, hs⟩ | ⟨r, -, -, hs⟩ | ⟨⟨op, args⟩, next, -, hd, hs⟩ <;> rw [hs] at h
    · cases hr.symm.trans h
    · cases h
    · cases dispatch_halted (s := s.setPc next) hr h
      exact ⟨args, next, hd⟩
  · rintro ⟨args, next, hd⟩
    rw [stepState_ok hr hd, dispatch_status_halted_iff (s := s.setPc next) hr]

/-- A step fails by its decode or by its dispatch. -/
theorem stepState_status_failed_iff {c : Config} {s : State} {r : Reason} (hc : c.wellFormed = true)
    (hr : s.status = .running) :
    (stepState c s).status = .failed r ↔
      decode c s.buf s.pc = .err r ∨ ∃ ins next, decode c s.buf s.pc = .ok ins next ∧ DispatchFails c ins r := by
  rcases decode_cases c s.buf s.pc with ⟨ins, next, hd⟩ | ⟨r', hd⟩
  · rw [stepState_ok hr hd, dispatch_status_failed_iff (s := s.setPc next) hc hr, hd]
    simp
  · rw [stepState_err hr hd, hd]
    simp

/-- A decode fails with its own two reasons only. -/
theorem decode_ne_err {c : Config} {m : Memory} {pc : Nat} {r : Reason} (hend : r ≠ .endOfProgram)
    (htrunc : ∀ op argc need, r ≠ .truncatedInstruction op argc need) : decode c m pc ≠ .err r := by
  intro h
  rcases decode_err_needs_bytes h with ⟨hr, -⟩ | ⟨op, argc, need, hr, -⟩
  · exact hend hr
  · exact htrunc op argc need hr

/-- A reason that no dispatch gives is the decode's. -/
theorem stepState_status_decode_iff {c : Config} {s : State} {r : Reason} (hc : c.wellFormed = true)
    (hr : s.status = .running) (hdecode : ∀ ins, ¬ DispatchFails c ins r) :
    (stepState c s).status = .failed r ↔ decode c s.buf s.pc = .err r := by
  rw [stepState_status_failed_iff hc hr]
  exact or_iff_left fun ⟨ins, _, _, hfail⟩ => hdecode ins hfail

/-- A reason that no decode gives is the dispatch's. -/
theorem stepState_status_dispatch_iff {c : Config} {s : State} {r : Reason} (hc : c.wellFormed = true)
    (hr : s.status = .running) (hdispatch : decode c s.buf s.pc ≠ .err r) :
    (stepState c s).status = .failed r ↔ ∃ ins next, decode c s.buf s.pc = .ok ins next ∧ DispatchFails c ins r := by
  rw [stepState_status_failed_iff hc hr]
  exact or_iff_right hdispatch

/-- Settles O45: HALT's dispatch is the only one that halts; two reasons are the decode's, and the three others are those of
a failed dispatch. -/
theorem eachTerminalStatusHasItsCause : Obligations.EachTerminalStatusHasItsCause := by
  intro c s hc hr
  refine ⟨stepState_status_halted_iff hr, stepState_status_decode_iff hc hr nofun,
    fun op argc need => stepState_status_decode_iff hc hr nofun,
    fun op => Iff.trans (stepState_status_dispatch_iff hc hr (decode_ne_err nofun nofun)) ⟨?_, ?_⟩,
    fun n => Iff.trans (stepState_status_dispatch_iff hc hr (decode_ne_err nofun nofun)) ⟨?_, ?_⟩,
    fun op got => Iff.trans (stepState_status_dispatch_iff hc hr (decode_ne_err nofun nofun)) ⟨?_, ?_⟩⟩
  · rintro ⟨_, next, hd, ⟨_, args, hhalt, hnoop, hmove, hli⟩ | _ | _⟩
    exact ⟨args, next, hd, hhalt, hnoop, hmove, hli⟩
  · rintro ⟨args, next, hd, hhalt, hnoop, hmove, hli⟩
    exact ⟨_, next, hd, .noHandler op args hhalt hnoop hmove hli⟩
  · rintro ⟨_, next, hd, _ | _ | ⟨a1, a2, h1, h2, hn⟩⟩
    exact ⟨a1, a2, next, hd, h1, h2, rfl, hn⟩
  · rintro ⟨a1, a2, next, hd, h1, h2, rfl, hn⟩
    exact ⟨_, next, hd, .index a1 a2 h1 h2 hn⟩
  · rintro ⟨_, next, hd, _ | ⟨args, hspec⟩ | _⟩
    exact ⟨args, next, hd, rfl, rfl, hspec⟩
  · rintro ⟨args, next, hd, rfl, rfl, hspec⟩
    exact ⟨_, next, hd, .shape args hspec⟩

/-- Settles O44: a failed step is a decode failure, which leaves `pc`, or a failed dispatch, past the instruction. -/
theorem failuresArePrecise : Obligations.FailuresArePrecise := by
  intro c s r hc hr hfail
  refine ⟨?_, stepState_buf c s, fun hd => by rw [stepState_err hr hd, State.fail_pc],
    fun ins next hd => stepState_pc_of_decode_ok hr hd⟩
  rcases (stepState_status_failed_iff hc hr).mp hfail with hd | ⟨ins, next, hd, hfails⟩
  · rw [stepState_err hr hd, State.fail_x]
  · rw [stepState_ok hr hd, dispatch_of_dispatchFails hc hfails, State.fail_x, State.setPc_x]

/-- Settles O48: the step records the decode's failure, whose bytes are those of a shape of its opcode. -/
theorem truncatedInstructionIsNeverDispatched : Obligations.TruncatedInstructionIsNeverDispatched := by
  intro c s op argc need _ hr hd
  rw [stepState_err hr hd]
  obtain ⟨e, a, hhead, -, hneed, hlong⟩ := decode_eq_truncated.mp hd
  obtain ⟨-, ha, -⟩ := decodeHead_bounds hhead
  exact ⟨rfl, rfl, nofun, e, hneed, by omega⟩

/-! ### The trace port (42_dispatch R181) -/

theorem traceEvent_terminal {c : Config} {s : State} (h : s.status.terminal = true) : traceEvent c s = none := by
  cases hs : s.status with
  | running => exact absurd hs (Status.ne_running_of_terminal h)
  | halted => simp only [traceEvent, hs, ite_self]
  | failed r => simp only [traceEvent, hs, ite_self]

theorem traceEvent_err {c : Config} {s : State} {r : Reason} (hc : c.wellFormed = true) (hr : s.status = .running)
    (hd : decode c s.buf s.pc = .err r) :
    traceEvent c s = some { pcBefore := s.pc, outcome := .decodeFailed r } := by
  simp only [traceEvent, hc, hr, hd, if_true]

theorem traceEvent_ok {c : Config} {s : State} {ins : Decoded} {next : Nat} (hc : c.wellFormed = true)
    (hr : s.status = .running) (hd : decode c s.buf s.pc = .ok ins next) :
    traceEvent c s = some { pcBefore := s.pc, outcome := .decoded ins next (stepState c s).status } := by
  simp only [traceEvent, hc, hr, hd, if_true, stepState_ok hr hd]

/-- Settles O59: the three cases of a step, each with its event. -/
theorem traceTellsWhatTheStepDoes : Obligations.TraceTellsWhatTheStepDoes := by
  intro c s hc
  rcases stepState_cases c s with ⟨ht, -⟩ | ⟨r, hr, hd, hs⟩ | ⟨ins, next, hr, hd, -⟩
  · rw [traceEvent_terminal ht]
    exact ⟨⟨nofun, fun hr => absurd hr (Status.ne_running_of_terminal ht)⟩, nofun⟩
  · rw [traceEvent_err hc hr hd]
    refine ⟨⟨fun _ => hr, fun _ => rfl⟩, ?_⟩
    rintro _ ⟨⟩
    refine ⟨rfl, nofun, ?_⟩
    rintro _ ⟨⟩
    exact ⟨hd, by rw [hs, State.fail_status]⟩
  · rw [traceEvent_ok hc hr hd]
    refine ⟨⟨fun _ => hr, fun _ => rfl⟩, ?_⟩
    rintro _ ⟨⟩
    refine ⟨rfl, ?_, nofun⟩
    rintro _ _ _ ⟨⟩
    exact ⟨hd, stepState_pc_of_decode_ok hr hd, rfl⟩

end Sys2Proof.Machine
end

section
/-! Proof about the pseudo-instruction `li` (30_encoding R70): its five bytes are an EXT_SECOND LOAD_IMMEDIATE under every
well-formed configuration. -/

namespace Sys2Proof.Machine

/-- The 16-bit pattern of an immediate in range extends to its 32-bit pattern. -/
theorem signExtend_ofInt {v : Int} (hlo : -32768 ≤ v) (hhi : v ≤ 32767) :
    (BitVec.ofInt 16 v).signExtend 32 = BitVec.ofInt 32 v := by
  rw [← sext32_toInt, BitVec.toInt_ofInt_eq_self (by decide) hlo (by omega), sext32]

theorem decode_liBytes {c : Config} (hc : c.wellFormed = true) (pre post : List Byte) (n : Byte) (v : Int) :
    decode c (Memory.ofBytes (pre ++ liBytes c n v ++ post)) pre.length =
      .ok { op := .real c.ids.loadImmediate, args := [.ofByte .u n, .ofHalf .s (BitVec.ofInt 16 v)] }
        (pre.length + 5) := by
  obtain ⟨-, -, hshape, -⟩ := Config.pinned hc
  obtain ⟨-, -, -, hlt, -⟩ := Config.ids_lt hc
  have hhead := decodeHead_extSecond hc (Memory.read_inside pre (liBytes c n v) post 0 (by decide : 0 < 5))
    (Memory.read_inside pre (liBytes c n v) post 1 (by decide : 1 < 5))
  rw [Config.fromByte_toByte_real hc hlt] at hhead
  have hn := Memory.slice_inside pre (liBytes c n v) post 2 1 (by decide : 3 ≤ 5)
  have hv := Memory.slice_inside pre (liBytes c n v) post 3 2 (by decide : 5 ≤ 5)
  have hargs : takeArgs (Memory.ofBytes (pre ++ liBytes c n v ++ post)) (pre.length + 2) [.u8, .s16] =
      [.ofByte .u n, .ofHalf .s (BitVec.ofInt 16 v)] := by
    simp only [takeArgs, Width.bytes, Nat.add_assoc, hn, hv]
    rfl
  have hd := decode_of_fits hhead
  rw [hshape, (Shape.widen_u8_s8_eq_u8_s16 .second).mpr rfl, hargs] at hd
  have hlen : (pre ++ liBytes c n v ++ post).length = pre.length + 5 + post.length := by
    simp only [List.length_append, liBytes, List.length_cons, List.length_nil]
  exact hd (by rw [Memory.length_ofBytes, hlen]; exact Nat.le_add_right _ _)

/-- Settles O53: the decoded instruction is the register load, with the index check first. -/
theorem liLoadsItsRegister : Obligations.LiLoadsItsRegister := by
  intro c s pre post n v hc hr hbuf hpc hlo hhi
  have hd := decode_liBytes hc pre post n v
  rw [← hbuf, ← hpc] at hd
  rw [stepState_ok hr hd, dispatch_loadImmediate hc, State.loadImmediate_ofByte_ofHalf, signExtend_ofInt hlo hhi, hpc]
  exact ⟨fun h => if_pos h, fun h => if_neg (Nat.not_lt.mpr h)⟩

end Sys2Proof.Machine
end
